-- ==== Sys2Proof/Word.lean ====
section
/-! DEFINITION. Word: the bit symbol of the sequence level and the widths of the buses. -/

namespace Sys2Proof

/-- A symbol of a sequence (D17, 60_exceptions.md R94): a bit, or anything else the caller may hand over. -/
inductive Symbol where
  | zero
  | one
  | other
  deriving DecidableEq, Repr

/-- `N`, the codeword length (00_scope.md R5). -/
def codewordLen (M : Nat) : Nat := 2 ^ M - 1

/-- `K`, the data word length (00_scope.md R5). -/
def dataLen (M : Nat) : Nat := codewordLen M - M

/-- `W`, the width of a packed request to `hamming_core` (30_encoding.md R40). -/
abbrev requestLen (M : Nat) : Nat := 3 + (M * codewordLen M + (codewordLen M + dataLen M))

/-- The width of a packed stand-alone `LOC` request (30_encoding.md R47). -/
abbrev locatorRequestLen (M : Nat) : Nat := M + codewordLen M

/-- A number written on a stated count of bits (30_encoding.md R40, R47: the writing conventions for requests). -/
structure PackedWord where
  width : Nat
  bits : BitVec width
  deriving DecidableEq, Repr

end Sys2Proof
end

