-- ==== Sys2Proof/Config.lean ====
section
/-! DEFINITION. Config: what is fixed when the hardware is instantiated. The spec fixes every result, so there is no
free value here. -/

namespace Sys2Proof

/-- The parameter of the Hamming units (00_scope.md R5): `M` with the proof without which there is no instance
(60_exceptions.md R98). `N`, `K`, `H` and `G` follow from it (10_state.md R11, R12). -/
structure Params where
  M : Nat
  two_le_M : 2 ≤ M
  deriving DecidableEq, Repr

/-- The parameters of a stand-alone `gf2_matrix_mult_unit` (10_state.md R20, D10). -/
structure Shape where
  R : Nat
  C : Nat
  one_le_R : 1 ≤ R
  one_le_C : 1 ≤ C
  deriving DecidableEq, Repr

/-- The instance spec/opcode_table.json writes its encodings for. DESIGN CHOICE (log entry 1): it is also the instance
at reset, since the spec names no `M` for reset. -/
def Params.table : Params := ⟨3, by decide⟩

/-- DESIGN CHOICE (log entry 2): the shape of the spec's own stand-alone example, 95_test_vectors.md 2.3. -/
def Shape.example23 : Shape := ⟨2, 3, by decide, by decide⟩

end Sys2Proof
end

