-- ==== Sys2Proof/Syntax.lean ====
section
/-! DEFINITION. Syntax: the operations of spec/opcode_table.json and the requests a caller presents on the ports. -/

namespace Sys2Proof

/-- One constructor per row of spec/opcode_table.json. An operand is a written bit string, most significant bit first
(20_memory.md R32, 30_encoding.md R45); a matrix is the written numeral of its bus (30_encoding.md R46). -/
inductive Instr where
  | enc (data : List Symbol)
  | syn (cw : List Symbol)
  | chk (cw : List Symbol)
  | dec (cw : List Symbol)
  | pos (data : List Symbol)
  | ext (cw : List Symbol)
  | mvm (mat vec : List Symbol)
  | illegal
  | loc (cw synIn : List Symbol)
  deriving DecidableEq, Repr

/-- The eight values of `op` (30_encoding.md R41). -/
inductive Op where
  | enc | syn | chk | dec | pos | ext | mvm | reserved
  deriving DecidableEq, Repr

/-- The input ports of `hamming_core` (10_state.md R23, 30_encoding.md R40). -/
structure CoreRequest (M : Nat) where
  op : BitVec 3
  dataIn : BitVec (dataLen M)
  cwIn : BitVec (codewordLen M)
  matIn : BitVec (M * codewordLen M)
  deriving DecidableEq, Repr

/-- A transaction of the caller's list (44_hamming_core.md R83): on `hamming_core`, or on a unit used on its own
(30_encoding.md R47). `M` is that of the Hamming units, `R` and `C` that of the stand-alone matrix unit. -/
inductive Request (M R C : Nat) where
  | core (r : CoreRequest M)
  | locator (cwIn : BitVec (codewordLen M)) (synIn : BitVec M)
  | encoder (dataIn : BitVec (dataLen M))
  | syndrome (cwIn : BitVec (codewordLen M))
  | matrix (mat : BitVec (R * C)) (vec : BitVec C)
  deriving DecidableEq, Repr

end Sys2Proof
end

