-- ==== Sys2Proof/WellFormed.lean ====
section
/-! DEFINITION. WellFormed: which terms of `Instr` are requests that the ports of an instance can carry. -/

namespace Sys2Proof

/-- The symbol is a bit (60_exceptions.md R94). -/
def Symbol.isBit : Symbol → Bool
  | .zero => true
  | .one => true
  | .other => false

/-- A written bit string of exactly `w` bits (60_exceptions.md R93, R94). -/
def isBitString (w : Nat) (x : List Symbol) : Bool :=
  x.length == w && x.all Symbol.isBit

/-- The operands have the widths an instance with parameter `M` gives them (30_encoding.md R42) and hold bits only. -/
def Instr.wf (M : Nat) : Instr → Bool
  | .enc data => isBitString (dataLen M) data
  | .syn cw => isBitString (codewordLen M) cw
  | .chk cw => isBitString (codewordLen M) cw
  | .dec cw => isBitString (codewordLen M) cw
  | .pos data => isBitString (dataLen M) data
  | .ext cw => isBitString (codewordLen M) cw
  | .mvm mat vec => isBitString (M * codewordLen M) mat && isBitString (codewordLen M) vec
  | .illegal => true
  | .loc cw synIn => isBitString (codewordLen M) cw && isBitString M synIn

end Sys2Proof
end

