-- ==== Sys2Proof/Decode.lean ====
section
/-! DEFINITION. Decode: bit-order helpers, the decoder of requests, and after it the encoder. -/

namespace Sys2Proof

/-! ## Bit order -/

/-- The number whose bit `i` is `f i`, for `i < w`. -/
def bitsToNat : Nat → (Nat → Bool) → Nat
  | 0, _ => 0
  | w + 1, f => 2 ^ w * (f w).toNat + bitsToNat w f

/-- The bus of width `w` whose bit `i` is `f i`. -/
def ofBits (w : Nat) (f : Nat → Bool) : BitVec w := BitVec.ofNat w (bitsToNat w f)

/-- The symbol of a bit. -/
def Symbol.ofBool : Bool → Symbol
  | false => .zero
  | true => .one

/-- A written bit string as a bus: bus bit `w - 1 - t` is character `t` (20_memory.md R32). -/
def busOf (w : Nat) (x : List Symbol) : BitVec w :=
  ofBits w fun b => x[w - 1 - b]? == some .one

/-- A bus as a written bit string, most significant bit first (20_memory.md R32). -/
def written {w : Nat} (b : BitVec w) : List Symbol :=
  (List.range w).map fun t => .ofBool (b.getLsbD (w - 1 - t))

/-- The symbol of a typed character (60_exceptions.md R94, D17): only '0' and '1' are recognized. Log entry 10. -/
def Symbol.ofChar (c : Char) : Symbol :=
  if c = '0' then .zero else if c = '1' then .one else .other

/-- The symbols of a typed string. -/
def symbols (text : String) : List Symbol := text.toList.map Symbol.ofChar

/-! ## Operation codes (30_encoding.md R41) -/

/-- The operation that `op` selects. -/
def Op.ofBits (b : BitVec 3) : Op :=
  match b.toNat with
  | 0 => .enc
  | 1 => .syn
  | 2 => .chk
  | 3 => .dec
  | 4 => .pos
  | 5 => .ext
  | 6 => .mvm
  | _ => .reserved

/-- The code of an operation. -/
def Op.code : Op → BitVec 3
  | .enc => 0b000#3
  | .syn => 0b001#3
  | .chk => 0b010#3
  | .dec => 0b011#3
  | .pos => 0b100#3
  | .ext => 0b101#3
  | .mvm => 0b110#3
  | .reserved => 0b111#3

/-! ## Packed requests (30_encoding.md R40, R47) -/

/-- A request to `hamming_core` as one number, `op`, `mat_in`, `cw_in`, `data_in`, most significant field first. -/
def CoreRequest.pack {M : Nat} (r : CoreRequest M) : BitVec (requestLen M) :=
  r.op ++ (r.matIn ++ (r.cwIn ++ r.dataIn))

/-- The fields of a packed request, at the bit numbers of the table of R40. -/
def CoreRequest.unpack {M : Nat} (w : BitVec (requestLen M)) : CoreRequest M where
  dataIn := w.extractLsb' 0 (dataLen M)
  cwIn := w.extractLsb' (dataLen M) (codewordLen M)
  matIn := w.extractLsb' (dataLen M + codewordLen M) (M * codewordLen M)
  op := w.extractLsb' (dataLen M + codewordLen M + M * codewordLen M) 3

/-- A stand-alone `LOC` request as one number, `syn_in` above `cw_in` (R47). -/
def packLocator {M : Nat} (cwIn : BitVec (codewordLen M)) (synIn : BitVec M) : BitVec (locatorRequestLen M) :=
  synIn ++ cwIn

/-! ## The decoder -/

/-- Why a written number is no request. -/
inductive DecodeError where
  /-- No packed form has this width (R40 and R47 give the only two). Safe: nothing runs. -/
  | noSuchFormat (width : Nat)
  deriving DecidableEq, Repr

/-- The instruction on the input ports of `hamming_core`: the ports an operation does not read are dropped (R41, R42). -/
def CoreRequest.instr {M : Nat} (r : CoreRequest M) : Instr :=
  match Op.ofBits r.op with
  | .enc => .enc (written r.dataIn)
  | .syn => .syn (written r.cwIn)
  | .chk => .chk (written r.cwIn)
  | .dec => .dec (written r.cwIn)
  | .pos => .pos (written r.dataIn)
  | .ext => .ext (written r.cwIn)
  | .mvm => .mvm (written r.matIn) (written r.cwIn)
  | .reserved => .illegal

/-- The instruction of a packed stand-alone `LOC` request (R47). -/
def locatorInstr {M : Nat} (w : BitVec (locatorRequestLen M)) : Instr :=
  .loc (written (w.extractLsb' 0 (codewordLen M))) (written (w.extractLsb' (codewordLen M) M))

/-- The instruction a packed number stands for on an instance with parameter `M`. All eight values of `op` are
assigned (R44), so only the width can be wrong. -/
def decode (M : Nat) (w : PackedWord) : Except DecodeError Instr :=
  if w.width = requestLen M then .ok (CoreRequest.unpack (M := M) (w.bits.setWidth _)).instr
  else if w.width = locatorRequestLen M then .ok (locatorInstr (M := M) (w.bits.setWidth _))
  else .error (.noSuchFormat w.width)

/-- The instruction of a transaction. A stand-alone encoder, syndrome unit or matrix unit has no operation code and no
row of the table (R47, log entry 5). -/
def Request.instr {M R C : Nat} : Request M R C → Option Instr
  | .core r => some r.instr
  | .locator cwIn synIn => some (.loc (written cwIn) (written synIn))
  | .encoder _ => none
  | .syndrome _ => none
  | .matrix _ _ => none

/-! ## The encoder -/

/-- The packed number of a request to `hamming_core`. -/
def CoreRequest.word {M : Nat} (r : CoreRequest M) : PackedWord := ⟨requestLen M, r.pack⟩

/-- The packed number of an instruction, "with every field an operation does not read written as zero" (R40). -/
def encode (M : Nat) : Instr → PackedWord
  | .enc data => CoreRequest.word (M := M) ⟨Op.code .enc, busOf _ data, 0, 0⟩
  | .syn cw => CoreRequest.word (M := M) ⟨Op.code .syn, 0, busOf _ cw, 0⟩
  | .chk cw => CoreRequest.word (M := M) ⟨Op.code .chk, 0, busOf _ cw, 0⟩
  | .dec cw => CoreRequest.word (M := M) ⟨Op.code .dec, 0, busOf _ cw, 0⟩
  | .pos data => CoreRequest.word (M := M) ⟨Op.code .pos, busOf _ data, 0, 0⟩
  | .ext cw => CoreRequest.word (M := M) ⟨Op.code .ext, 0, busOf _ cw, 0⟩
  | .mvm mat vec => CoreRequest.word (M := M) ⟨Op.code .mvm, 0, busOf _ vec, busOf _ mat⟩
  | .illegal => CoreRequest.word (M := M) ⟨Op.code .reserved, 0, 0, 0⟩
  | .loc cw synIn => ⟨locatorRequestLen M, packLocator (M := M) (busOf _ cw) (busOf _ synIn)⟩

/-- The request with every port its operation does not read set to zero (R40, R42). -/
def CoreRequest.zeroUnread {M : Nat} (r : CoreRequest M) : CoreRequest M :=
  match Op.ofBits r.op with
  | .enc => { r with cwIn := 0, matIn := 0 }
  | .pos => { r with cwIn := 0, matIn := 0 }
  | .syn => { r with dataIn := 0, matIn := 0 }
  | .chk => { r with dataIn := 0, matIn := 0 }
  | .dec => { r with dataIn := 0, matIn := 0 }
  | .ext => { r with dataIn := 0, matIn := 0 }
  | .mvm => { r with dataIn := 0 }
  | .reserved => { r with dataIn := 0, cwIn := 0, matIn := 0 }

/-! ## Words numbered as spec/opcode_table.json numbers them -/

/-- The transaction that a table word stands for. A row's "encoding" is the packed request (R40) or the packed `LOC`
(R47); a row's "match" alone is the 3-bit field `op`, with every operand zero. Log entry 12. -/
def requestOfTableWord (M R C nbits w : Nat) : Request M R C :=
  let v := w % 2 ^ nbits
  if requestLen M ≤ nbits then .core (.unpack (BitVec.ofNat _ v))
  else if locatorRequestLen M ≤ nbits ∧ nbits < locatorRequestLen M + 8 then
    let b := BitVec.ofNat (locatorRequestLen M) v
    .locator (b.extractLsb' 0 _) (b.extractLsb' (codewordLen M) _)
  else .core ⟨BitVec.ofNat 3 v, 0, 0, 0⟩

/-- The instruction the decoder reads from a table word (the table writes the instance `M = 3`). -/
def decodeTableWord (nbits w : Nat) : Option Instr :=
  (requestOfTableWord Params.table.M 1 1 nbits w).instr

end Sys2Proof
end

