-- ==== Sys2Proof/Machine/State.lean ====
section
/-! DEFINITION. State: the configuration, the port values and the caller's list of transactions. -/

namespace Sys2Proof.Machine

/-- The output ports of `hamming_core` (10_state.md R23). -/
structure CoreResponse (M : Nat) where
  cwOut : BitVec (codewordLen M)
  dataOut : BitVec (dataLen M)
  synOut : BitVec M
  errPos : BitVec M
  errFlag : Bool
  ok : Bool
  status : BitVec 3
  deriving DecidableEq, Repr

/-- The ports of a stand-alone `hamming_encoder` (10_state.md R19). -/
structure EncoderPorts (M : Nat) where
  dataIn : BitVec (dataLen M)
  posOut : BitVec (codewordLen M)
  cwOut : BitVec (codewordLen M)
  deriving DecidableEq, Repr

/-- The ports of a stand-alone `gf2_matrix_mult_unit` (10_state.md R20). -/
structure MatrixPorts (R C : Nat) where
  mat : BitVec (R * C)
  vec : BitVec C
  out : BitVec R
  deriving DecidableEq, Repr

/-- The ports of a stand-alone `hamming_syndrome_calc` (10_state.md R21). -/
structure SyndromePorts (M : Nat) where
  cwIn : BitVec (codewordLen M)
  syn : BitVec M
  ok : Bool
  deriving DecidableEq, Repr

/-- The ports of a stand-alone `hamming_error_locator` (10_state.md R22). -/
structure LocatorPorts (M : Nat) where
  cwIn : BitVec (codewordLen M)
  synIn : BitVec M
  cwCorr : BitVec (codewordLen M)
  dataOut : BitVec (dataLen M)
  errPos : BitVec M
  errFlag : Bool
  deriving DecidableEq, Repr

/-- The wires of every unit (10_state.md R19 to R23). `M` is that of the Hamming units, `R` and `C` that of the
stand-alone matrix unit. -/
structure Wires (M R C : Nat) where
  coreIn : CoreRequest M
  coreOut : CoreResponse M
  encoder : EncoderPorts M
  matrix : MatrixPorts R C
  syndrome : SyndromePorts M
  locator : LocatorPorts M
  deriving DecidableEq, Repr

/-- The whole machine: what is fixed at construction (10_state.md R11), the wires of every unit and the caller's list of
transactions, the next one first (44_hamming_core.md R83). The block itself has no state (R10); log entries 1 to 4 say
what each field stands for. -/
structure State where
  params : Params
  shape : Shape
  wires : Wires params.M shape.R shape.C
  pending : List (Request params.M shape.R shape.C)
  deriving DecidableEq, Repr

/-- `M` of the machine's Hamming units. -/
abbrev State.M (s : State) : Nat := s.params.M

/-- The errors of the source (60_exceptions.md R90). The sequence-level functions and `construct` return them. As the
outcome of a step they are raised by `LOC` alone, on operands its ports cannot carry (log entry 7). Safe: nothing is
produced (R95). -/
inductive Fault where
  /-- Construction with `parity_bits < 2` (R98). Raised by `construct`. -/
  | invalidParameter
  /-- An argument without the exact expected length (R93). -/
  | lengthMismatch
  /-- An argument with a symbol that is no bit (R94). -/
  | invalidCharacter
  /-- A vector whose length is not the matrix's column count (R92). -/
  | shapeMismatch
  deriving DecidableEq, Repr

/-- Why there is no meaning for an instruction. -/
inductive Refusal where
  /-- Raised by an arm of `exec` whose instruction has no meaning yet. No arm does so. Safe. -/
  | notModelled (mnemonic : String)
  deriving DecidableEq, Repr

/-- The outcome of a step of this machine. -/
abbrev Result := Host.Outcome State Fault Refusal

/-- Every input wire 0, every output wire the value its unit gives for those inputs (10_state.md R25). Log entry 3. -/
def Wires.init (M R C : Nat) : Wires M R C where
  coreIn := ⟨0, 0, 0, 0⟩
  coreOut := ⟨0, 0, 0, 0, false, false, 0⟩
  encoder := ⟨0, 0, 0⟩
  matrix := ⟨0, 0, 0⟩
  syndrome := ⟨0, 0, true⟩
  locator := ⟨0, 0, 0, 0, BitVec.allOnes _, false⟩

/-- The machine as instantiated, before any transaction, no transaction listed. Log entries 3 and 4. -/
def State.init (p : Params) (sh : Shape) : State := ⟨p, sh, Wires.init _ _ _, []⟩

/-- The machine right after reset: there is nothing to reset (10_state.md R25, 70_reset_and_hazards.md R106), so it is
the instance of the opcode table as instantiated. Log entries 1 to 4. -/
def State.reset : State := State.init Params.table Shape.example23

end Sys2Proof.Machine
end

