-- ==== Sys2Proof/Machine/Construct.lean ====
section
/-! DEFINITION. Construct: the instantiation of the Hamming units (70_reset_and_hazards.md R105), not a step. -/

namespace Sys2Proof.Machine

/-- `Construct(parity_bits)`: the configuration, or `InvalidParameter` and nothing built (60_exceptions.md R98). The
matrices are functions of `M` (10_state.md R12). -/
def construct (parityBits : Int) : Except Fault Params :=
  if h : 2 ≤ parityBits then .ok ⟨parityBits.toNat, by omega⟩ else .error .invalidParameter

end Sys2Proof.Machine
end

