-- ==== Sys2Proof/Machine/Flags.lean ====
section
/-! DEFINITION. Flags: the one-bit results, the reported index and the codes of the `status` port. Nothing here is
stored (10_state.md R24). -/

namespace Sys2Proof.Machine

/-- `err_flag`: a bit was flipped (43_hamming_error_locator.md R72). -/
def errFlag {M : Nat} (syn : BitVec M) : Bool := syn != 0

/-- `ok`: the syndrome is all zero (42_hamming_syndrome_calc.md R68). -/
def okFlag {M : Nat} (syn : BitVec M) : Bool := syn == 0

/-- `err_pos`: the index from the left of the flipped bit, all ones when nothing was flipped
(43_hamming_error_locator.md R74). -/
def errPos {M : Nat} (syn : BitVec M) : BitVec M := BitVec.ofNat M (codewordLen M - syn.toNat)

/-- `OK` (60_exceptions.md R91). -/
def statusOk : BitVec 3 := 0

/-- The code of an error of the source (60_exceptions.md R91). -/
def Fault.code : Fault → BitVec 3
  | .invalidParameter => 1
  | .lengthMismatch => 2
  | .invalidCharacter => 3
  | .shapeMismatch => 4

/-- `IllegalOp` (60_exceptions.md R91, 30_encoding.md R44). -/
def statusIllegalOp : BitVec 3 := 5

end Sys2Proof.Machine
end

