-- ==== Sys2Proof/Machine/Ops.lean ====
section
/-! DEFINITION. Ops: the named operations over bits, positions and the machine's wires, and the report of an error. -/

namespace Sys2Proof.Machine

/-! ## Bits -/

/-- `XOR{ e(j) : j in S }`; over no term it is 0 (00_scope.md 5.2, K1, log entry 14). -/
def xorOver (S : List Nat) (e : Nat → Bool) : Bool := S.foldr (fun j acc => e j ^^ acc) false

/-- The bus with bit `i` set to `v`; a bit number outside the bus changes nothing. -/
def setBit {w : Nat} (b : BitVec w) (i : Nat) (v : Bool) : BitVec w :=
  if v then b ||| BitVec.twoPow w i else b &&& ~~~ BitVec.twoPow w i

/-- The assignments `b[i] <- v`, one after another. -/
def assignAll {w : Nat} (b : BitVec w) (l : List (Nat × Bool)) : BitVec w :=
  l.foldl (fun acc a => setBit acc a.1 a.2) b

/-! ## Positions (10_state.md R15) -/

/-- `j` is an exact power of two (00_scope.md 5.2). -/
def isPow2 (j : Nat) : Bool := j == 2 ^ j.log2

/-- The positions `1..N` (20_memory.md R31). -/
def positions (M : Nat) : List Nat := List.range' 1 (codewordLen M)

/-- The data positions in increasing order. -/
def dataPositions (M : Nat) : List Nat := (positions M).filter fun j => !isPow2 j

/-- `dpos(r)`: the `(r+1)`-th smallest position that is no power of two (R15). -/
def dpos (M r : Nat) : Nat := (dataPositions M)[r]?.getD 0

/-! ## The wires -/

/-- The response in which every output is zero (30_encoding.md R43). -/
def CoreResponse.zero (M : Nat) : CoreResponse M := ⟨0, 0, 0, 0, false, false, statusOk⟩

section
variable {M R C : Nat}

/-- `hamming_core` drives a response (30_encoding.md R40). -/
def Wires.respond (w : Wires M R C) (o : CoreResponse M) : Wires M R C := { w with coreOut := o }

/-- Reporting an error on `hamming_core`: what stands in for taking an exception (60_exceptions.md R95). None of the
results is produced, `status` names the error, nothing is saved and nothing else changes. There is no return from it
(R99). -/
def Wires.report (w : Wires M R C) (code : BitVec 3) : Wires M R C :=
  w.respond { CoreResponse.zero M with status := code }

/-- The stand-alone locator drives its outputs, its input wires staying as they are (10_state.md R22). -/
def Wires.respondLocator (w : Wires M R C) (o : LocatorPorts M) : Wires M R C :=
  { w with locator := { o with cwIn := w.locator.cwIn, synIn := w.locator.synIn } }

/-- The caller presents a request: it drives the input wires of the unit it addresses (44_hamming_core.md R83). -/
def Wires.present (w : Wires M R C) : Request M R C → Wires M R C
  | .core q => { w with coreIn := q }
  | .locator cwIn synIn => { w with locator := { w.locator with cwIn, synIn } }
  | .encoder dataIn => { w with encoder := { w.encoder with dataIn } }
  | .syndrome cwIn => { w with syndrome := { w.syndrome with cwIn } }
  | .matrix mat vec => { w with matrix := { w.matrix with mat, vec } }

/-- The instruction a unit with an operation finds on its input wires: `hamming_core` decodes its ports, the stand-alone
locator is its own operation (30_encoding.md R41, R47). The three other units have none (log entry 5). -/
def Wires.instrOnPorts (w : Wires M R C) : Request M R C → Option Instr
  | .core _ => some w.coreIn.instr
  | .locator _ _ => some (.loc (written w.locator.cwIn) (written w.locator.synIn))
  | .encoder _ => none
  | .syndrome _ => none
  | .matrix _ _ => none

end

end Sys2Proof.Machine
end

