-- ==== Sys2Proof/Machine/Operands.lean ====
section
/-! DEFINITION. Operands: from a written operand to the bus it is presented on, with the checks of the sequence level
(30_encoding.md R45, 60_exceptions.md R93, R94, R97). An operand taken from the ports passes every check (R96). -/

namespace Sys2Proof.Machine

/-- Every symbol is a bit (60_exceptions.md R94). -/
def allBits (x : List Symbol) : Bool := x.all fun c => c != .other

/-- A written operand of exactly `w` bits as its bus: the length is checked first, then the symbols (R97). -/
def checkedBus (w : Nat) (x : List Symbol) : Except Fault (BitVec w) :=
  if x.length ≠ w then .error .lengthMismatch
  else if !allBits x then .error .invalidCharacter
  else .ok (busOf w x)

/-- The matrix and the vector of `MVM`: the shapes are checked first, then the symbols of both (R92, R94, R97).
Log entry 13. -/
def checkedMatrix (M : Nat) (mat vec : List Symbol) :
    Except Fault (BitVec (M * codewordLen M) × BitVec (codewordLen M)) :=
  if mat.length ≠ M * codewordLen M ∨ vec.length ≠ codewordLen M then .error .shapeMismatch
  else if !(allBits mat && allBits vec) then .error .invalidCharacter
  else .ok (busOf _ mat, busOf _ vec)

/-- The codeword and the syndrome of a stand-alone `LOC`: the lengths first, then the symbols. Log entry 7. -/
def checkedLocator (M : Nat) (cw synIn : List Symbol) :
    Except Fault (BitVec (codewordLen M) × BitVec M) :=
  if cw.length ≠ codewordLen M ∨ synIn.length ≠ M then .error .lengthMismatch
  else if !(allBits cw && allBits synIn) then .error .invalidCharacter
  else .ok (busOf _ cw, busOf _ synIn)

/-- A transaction of `hamming_core`: the operand's error is reported on `status` (60_exceptions.md R95, log entry 6),
else the block answers. -/
def State.transaction {α : Type} (s : State) (operand : Except Fault α) (answer : α → CoreResponse s.M) : Result :=
  match operand with
  | .error e => .next { s with wires := s.wires.report e.code }
  | .ok a => .next { s with wires := s.wires.respond (answer a) }

/-- Format D (30_encoding.md R42): reads `data_in`. -/
def State.formatD (s : State) (data : List Symbol) (answer : BitVec (dataLen s.M) → CoreResponse s.M) : Result :=
  s.transaction (checkedBus (dataLen s.M) data) answer

/-- Format C (30_encoding.md R42): reads `cw_in`. -/
def State.formatC (s : State) (cw : List Symbol) (answer : BitVec (codewordLen s.M) → CoreResponse s.M) : Result :=
  s.transaction (checkedBus (codewordLen s.M) cw) answer

/-- Format MC (30_encoding.md R42): reads `mat_in` and `cw_in`. -/
def State.formatMC (s : State) (mat vec : List Symbol)
    (answer : BitVec (s.M * codewordLen s.M) × BitVec (codewordLen s.M) → CoreResponse s.M) : Result :=
  s.transaction (checkedMatrix s.M mat vec) answer

end Sys2Proof.Machine
end

