-- ==== Sys2Proof/Machine/Encoder.lean ====
section
/-! DEFINITION. Encoder: `hamming_encoder`, `POS` and `ENC` (40_hamming_encoder.md). -/

namespace Sys2Proof.Machine

/-- The assignments that place the data bits (R51, R53). -/
def placeData (M : Nat) (d : BitVec (dataLen M)) : List (Nat × Bool) :=
  (List.range (dataLen M)).map fun r => (dpos M r - 1, d.getLsbD r)

/-- `POS` (R51): the data bits at the data positions, zero in the parity slots. -/
def positionedBits (M : Nat) (d : BitVec (dataLen M)) : BitVec (codewordLen M) :=
  assignAll 0 (placeData M d ++ (List.range M).map fun p => (2 ^ p - 1, false))

/-- Parity bit `p` of a data word (R53). -/
def parityBit (M : Nat) (d : BitVec (dataLen M)) (p : Nat) : Bool :=
  xorOver ((List.range (dataLen M)).filter fun r => (dpos M r).testBit p) fun r => d.getLsbD r

/-- `ENC` (R53): the data bits at the data positions, parity bit `p` at position `2^p`. -/
def codeword (M : Nat) (d : BitVec (dataLen M)) : BitVec (codewordLen M) :=
  assignAll 0 (placeData M d ++ (List.range M).map fun p => (2 ^ p - 1, parityBit M d p))

/-- The unit: both outputs at once (30_encoding.md R47, 10_state.md R19). -/
def hammingEncoder {M : Nat} (dataIn : BitVec (dataLen M)) : EncoderPorts M :=
  ⟨dataIn, positionedBits M dataIn, codeword M dataIn⟩

/-- The response to `POS` (44_hamming_core.md R81). -/
def posResponse {M : Nat} (d : BitVec (dataLen M)) : CoreResponse M :=
  { CoreResponse.zero M with cwOut := (hammingEncoder d).posOut }

/-- The response to `ENC` (44_hamming_core.md R81). -/
def encResponse {M : Nat} (d : BitVec (dataLen M)) : CoreResponse M :=
  { CoreResponse.zero M with cwOut := (hammingEncoder d).cwOut }

/-- `POS` (R51). -/
def execPos (data : List Symbol) (s : State) : Result := s.formatD data posResponse

/-- `ENC` (R53). -/
def execEnc (data : List Symbol) (s : State) : Result := s.formatD data encResponse

end Sys2Proof.Machine
end

