-- ==== Sys2Proof/Machine/Syndrome.lean ====
section
/-! DEFINITION. Syndrome: `hamming_syndrome_calc`, `SYN` and `CHK` (42_hamming_syndrome_calc.md). -/

namespace Sys2Proof.Machine

/-- `SYN` (R66): syndrome bit `i` is the XOR of the codeword bits at the positions with bit `i` set. -/
def syndromeOf (M : Nat) (cw : BitVec (codewordLen M)) : BitVec M :=
  ofBits M fun i => xorOver ((positions M).filter fun j => j.testBit i) fun j => cw.getLsbD (j - 1)

/-- The unit: the syndrome and the test for zero at once (30_encoding.md R47, 10_state.md R21). -/
def hammingSyndromeCalc {M : Nat} (cwIn : BitVec (codewordLen M)) : SyndromePorts M :=
  ⟨cwIn, syndromeOf M cwIn, okFlag (syndromeOf M cwIn)⟩

/-- The response to `SYN` (44_hamming_core.md R81). -/
def synResponse {M : Nat} (cw : BitVec (codewordLen M)) : CoreResponse M :=
  { CoreResponse.zero M with synOut := (hammingSyndromeCalc cw).syn }

/-- The response to `CHK` (44_hamming_core.md R81). -/
def chkResponse {M : Nat} (cw : BitVec (codewordLen M)) : CoreResponse M :=
  { CoreResponse.zero M with ok := (hammingSyndromeCalc cw).ok }

/-- `SYN` (R66). -/
def execSyn (cw : List Symbol) (s : State) : Result := s.formatC cw synResponse

/-- `CHK` (R68). -/
def execChk (cw : List Symbol) (s : State) : Result := s.formatC cw chkResponse

end Sys2Proof.Machine
end

