-- ==== Sys2Proof/Machine/Locator.lean ====
section
/-! DEFINITION. Locator: `hamming_error_locator`, `EXT`, `LOC` and `DEC` (43_hamming_error_locator.md). -/

namespace Sys2Proof.Machine

/-- `EXT` (R71): data bit `r` is the codeword bit at position `dpos(r)`. -/
def extractedData (M : Nat) (cw : BitVec (codewordLen M)) : BitVec (dataLen M) :=
  ofBits _ fun r => cw.getLsbD (dpos M r - 1)

/-- The flip (R72): the bit at position `v`, the value of the syndrome, is inverted when `v` is not zero. -/
def flipNamed {M : Nat} (cw : BitVec (codewordLen M)) (syn : BitVec M) : BitVec (codewordLen M) :=
  if syn.toNat ≠ 0 then setBit cw (syn.toNat - 1) (!cw.getLsbD (syn.toNat - 1)) else cw

/-- The unit: the corrected codeword, the data word extracted from it, the index and the flag (R72, R73, R74). -/
def hammingErrorLocator {M : Nat} (cwIn : BitVec (codewordLen M)) (synIn : BitVec M) : LocatorPorts M where
  cwIn := cwIn
  synIn := synIn
  cwCorr := flipNamed cwIn synIn
  dataOut := extractedData M (flipNamed cwIn synIn)
  errPos := errPos synIn
  errFlag := errFlag synIn

/-- The response to `EXT`: the locator driven with `syn_in = 0` (R71, 44_hamming_core.md R81). -/
def extResponse {M : Nat} (cw : BitVec (codewordLen M)) : CoreResponse M :=
  { CoreResponse.zero M with dataOut := (hammingErrorLocator cw 0).dataOut }

/-- The response to `DEC`: the locator driven with the syndrome of the same codeword (R75, 44_hamming_core.md R81). -/
def decResponse {M : Nat} (cw : BitVec (codewordLen M)) : CoreResponse M :=
  let o := hammingErrorLocator cw (hammingSyndromeCalc cw).syn
  { CoreResponse.zero M with cwOut := o.cwCorr, dataOut := o.dataOut, errPos := o.errPos, errFlag := o.errFlag }

/-- `EXT` (R71). -/
def execExt (cw : List Symbol) (s : State) : Result := s.formatC cw extResponse

/-- `DEC` (R75). -/
def execDec (cw : List Symbol) (s : State) : Result := s.formatC cw decResponse

/-- `LOC` on the stand-alone unit (R72, R73, R74). The unit has no `status` port, so an operand its ports cannot carry
is a fault (log entry 7); no request presents one. -/
def execLoc (cw synIn : List Symbol) (s : State) : Result :=
  match checkedLocator s.M cw synIn with
  | .error e => .fault e
  | .ok a => .next { s with wires := s.wires.respondLocator (hammingErrorLocator a.1 a.2) }

end Sys2Proof.Machine
end

