-- ==== Sys2Proof/Machine/Matrix.lean ====
section
/-! DEFINITION. Matrix: the constants `H` and `G` (10_state.md R13, R16), `gf2_matrix_mult_unit` and `MVM`
(41_gf2_matrix_mult_unit.md). -/

namespace Sys2Proof.Machine

/-- `H[i][j]`, row `i` in `0..M-1`, position `j` in `1..N` (10_state.md R13). -/
def checkMatrix (i j : Nat) : Bool := j.testBit i

/-- `H` on the matrix bus: `mat[i*N + c] = H[i][c+1]` (R63). -/
def checkMatrixBus (M : Nat) : BitVec (M * codewordLen M) :=
  ofBits _ fun t => checkMatrix (t / codewordLen M) (t % codewordLen M + 1)

/-- `G[r][c]`, row `r` in `0..K-1`, column `c` in `0..N-1` (10_state.md R16): an identity block, then the column of `H`
at the row's data position. No unit reads it. -/
def generatorMatrix (M r c : Nat) : Bool :=
  if c < dataLen M then c == r else checkMatrix (c - dataLen M) (dpos M r)

/-- `(x . G)[c]` for the row vector `x[r] = d[r]` (10_state.md R17). -/
def generatorProduct (M : Nat) (d : BitVec (dataLen M)) (c : Nat) : Bool :=
  xorOver (List.range (dataLen M)) fun r => d.getLsbD r && generatorMatrix M r c

/-- `MVM` (R61): output bit `i` is the XOR over `j` of `mat[i*C + j] & vec[j]`. -/
def matrixVector (R C : Nat) (mat : BitVec (R * C)) (vec : BitVec C) : BitVec R :=
  ofBits R fun i => xorOver (List.range C) fun j => mat.getLsbD (i * C + j) && vec.getLsbD j

/-- The unit (10_state.md R20, 30_encoding.md R47). -/
def gf2MatrixMultUnit {R C : Nat} (mat : BitVec (R * C)) (vec : BitVec C) : MatrixPorts R C :=
  ⟨mat, vec, matrixVector R C mat vec⟩

/-- The response to `MVM`: the unit with `R = M`, `C = N`, its product on `syn_out` (44_hamming_core.md R81). -/
def mvmResponse {M : Nat} (a : BitVec (M * codewordLen M) × BitVec (codewordLen M)) : CoreResponse M :=
  { CoreResponse.zero M with synOut := (gf2MatrixMultUnit a.1 a.2).out }

/-- `MVM` (R61). -/
def execMvm (mat vec : List Symbol) (s : State) : Result := s.formatMC mat vec mvmResponse

end Sys2Proof.Machine
end

