-- ==== Sys2Proof/Machine/Composite.lean ====
section
/-! DEFINITION. Composite: the reserved code, `hamming_core` as one function of its ports (44_hamming_core.md R81, R82),
and the units used on their own (30_encoding.md R47). -/

namespace Sys2Proof.Machine

/-- The response to the reserved code: `IllegalOp`, all other outputs zero (30_encoding.md R44). -/
def illegalResponse (M : Nat) : CoreResponse M := { CoreResponse.zero M with status := statusIllegalOp }

/-- The reserved code (30_encoding.md R44), reported as every error of `hamming_core` is (60_exceptions.md R95). -/
def execIllegal (s : State) : Result := .next { s with wires := s.wires.report statusIllegalOp }

/-- `hamming_core` as the total function of R82, its outputs as R81 lists them. -/
def hammingCore {M : Nat} (r : CoreRequest M) : CoreResponse M :=
  match Op.ofBits r.op with
  | .enc => encResponse r.dataIn
  | .syn => synResponse r.cwIn
  | .chk => chkResponse r.cwIn
  | .dec => decResponse r.cwIn
  | .pos => posResponse r.dataIn
  | .ext => extResponse r.cwIn
  | .mvm => mvmResponse (r.matIn, r.cwIn)
  | .reserved => illegalResponse M

/-- A unit without an operation code drives its outputs for the inputs on its wires (30_encoding.md R47). A transaction
that has an instruction leaves this to `exec`. -/
def Wires.settleUnit {M R C : Nat} (w : Wires M R C) : Request M R C → Wires M R C
  | .core _ => w
  | .locator _ _ => w
  | .encoder _ => { w with encoder := hammingEncoder w.encoder.dataIn }
  | .syndrome _ => { w with syndrome := hammingSyndromeCalc w.syndrome.cwIn }
  | .matrix _ _ => { w with matrix := gf2MatrixMultUnit w.matrix.mat w.matrix.vec }

end Sys2Proof.Machine
end

