-- ==== Sys2Proof/Machine/Dispatch.lean ====
section
/-! DEFINITION. Dispatch: which meaning an instruction has. -/

namespace Sys2Proof.Machine

def exec (i : Instr) (s : State) : Host.Outcome State Fault Refusal :=
  match i with
  | .enc data => Sys2Proof.Machine.execEnc data s
  | .syn cw => Sys2Proof.Machine.execSyn cw s
  | .chk cw => Sys2Proof.Machine.execChk cw s
  | .dec cw => Sys2Proof.Machine.execDec cw s
  | .pos data => Sys2Proof.Machine.execPos data s
  | .ext cw => Sys2Proof.Machine.execExt cw s
  | .mvm mat vec => Sys2Proof.Machine.execMvm mat vec s
  | .illegal => Sys2Proof.Machine.execIllegal s
  | .loc cw synIn => Sys2Proof.Machine.execLoc cw synIn s

end Sys2Proof.Machine
end

