-- ==== Sys2Proof/Machine/Sequence.lean ====
section
/-! DEFINITION. Sequence: the source's own operations, on sequences of symbols of any length, with their errors
(00_scope.md R6). They are written as the source's walks and loops; the port level does not use them. -/

namespace Sys2Proof.Machine

/-- The walk of `positionBits` (40_hamming_encoder.md R50): the bus so far, the parity-slot counter `q`, the count `r` of
data bits used. -/
def positionWalk {w k : Nat} (d : BitVec k) (acc : BitVec w × Nat × Nat) (j : Nat) : BitVec w × Nat × Nat :=
  if j = 2 ^ acc.2.1 then (setBit acc.1 (j - 1) false, acc.2.1 + 1, acc.2.2)
  else (setBit acc.1 (j - 1) (d.getLsbD acc.2.2), acc.2.1, acc.2.2 + 1)

/-- `positionBits` (40_hamming_encoder.md R50). -/
def positionBits (M : Nat) (x : List Symbol) : Except Fault (List Symbol) :=
  match checkedBus (dataLen M) x with
  | .error e => .error e
  | .ok d => .ok (written ((positions M).foldl (positionWalk d) ((0 : BitVec (codewordLen M)), 0, 0)).1)

/-- One turn of the parity loop of `encode` (40_hamming_encoder.md R52), on the word as it stands. -/
def parityTurn (M : Nat) (cw : BitVec (codewordLen M)) (p : Nat) : BitVec (codewordLen M) :=
  setBit cw (2 ^ p - 1) (xorOver ((positions M).filter fun j => j.testBit p) fun j => cw.getLsbD (j - 1))

/-- `encode` (40_hamming_encoder.md R52). -/
def encodeSequence (M : Nat) (x : List Symbol) : Except Fault (List Symbol) :=
  match positionBits M x with
  | .error e => .error e
  | .ok y => .ok (written ((List.range M).foldl (parityTurn M) (busOf (codewordLen M) y)))

/-- The walk of `extractDataBits` (43_hamming_error_locator.md R70): the bus so far and the count of bits collected. -/
def extractWalk {w k : Nat} (cw : BitVec w) (acc : BitVec k × Nat) (j : Nat) : BitVec k × Nat :=
  if isPow2 j then acc else (setBit acc.1 acc.2 (cw.getLsbD (j - 1)), acc.2 + 1)

/-- `extractDataBits` (43_hamming_error_locator.md R70). -/
def extractDataBits (M : Nat) (y : List Symbol) : Except Fault (List Symbol) :=
  match checkedBus (codewordLen M) y with
  | .error e => .error e
  | .ok cw => .ok (written ((positions M).foldl (extractWalk cw) ((0 : BitVec (dataLen M)), 0)).1)

/-- A matrix of symbols, rectangular by construction (41_gf2_matrix_mult_unit.md R60). -/
structure SymbolMatrix where
  rows : List (List Symbol)
  cols : Nat
  rectangular : ∀ row ∈ rows, row.length = cols
  deriving DecidableEq, Repr

/-- `matrixVectorProduct` (41_gf2_matrix_mult_unit.md R60): the shape, then the symbols, then the product. -/
def matrixVectorProduct (m : SymbolMatrix) (v : List Symbol) : Except Fault (List Symbol) :=
  if v.length ≠ m.cols then .error .shapeMismatch
  else if !(allBits v && m.rows.all allBits) then .error .invalidCharacter
  else .ok (m.rows.map fun row =>
    .ofBool (xorOver (List.range m.cols) fun j => row[j]? == some .one && v[j]? == some .one))

/-- `H` as a matrix of symbols: `matrix[i][c] = H[i][c+1]` (10_state.md R13). -/
def checkMatrixSymbols (M : Nat) : SymbolMatrix where
  rows := (List.range M).map fun i => (List.range (codewordLen M)).map fun c => .ofBool (checkMatrix i (c + 1))
  cols := codewordLen M
  rectangular := by simp

/-- The syndrome of a received word as the source computes it (42_hamming_syndrome_calc.md R65): the word is consumed
from its least significant end (20_memory.md R34). -/
def syndromeSymbols (M : Nat) (y : List Symbol) : Except Fault (List Symbol) :=
  match checkedBus (codewordLen M) y with
  | .error e => .error e
  | .ok cw =>
    matrixVectorProduct (checkMatrixSymbols M) ((List.range (codewordLen M)).map fun c => .ofBool (cw.getLsbD c))

/-- `detectError` (42_hamming_syndrome_calc.md R65): syndrome element `i` has weight `2^i`. -/
def detectError (M : Nat) (y : List Symbol) : Except Fault Nat :=
  match syndromeSymbols M y with
  | .error e => .error e
  | .ok syn => .ok (bitsToNat M fun i => syn[i]? == some .one)

/-- `check` (42_hamming_syndrome_calc.md R68): the product is the all-zero vector. -/
def checkSequence (M : Nat) (y : List Symbol) : Except Fault Bool :=
  match syndromeSymbols M y with
  | .error e => .error e
  | .ok syn => .ok (syn.all fun c => c == .zero)

/-- The result of `decode` (43_hamming_error_locator.md R76); the sentinel is `none`. -/
structure Decoded where
  corrected : List Symbol
  data : List Symbol
  errorPosition : Option Nat
  errorFlag : Bool
  deriving DecidableEq, Repr

/-- The flip of `decode` (43_hamming_error_locator.md R76). -/
def flipSequence (M : Nat) (y : List Symbol) (v : Nat) : List Symbol :=
  let cw := busOf (codewordLen M) y
  written (if v ≠ 0 then setBit cw (v - 1) (!cw.getLsbD (v - 1)) else cw)

/-- `decode` (43_hamming_error_locator.md R76). -/
def decodeSequence (M : Nat) (y : List Symbol) : Except Fault Decoded :=
  match detectError M y with
  | .error e => .error e
  | .ok v =>
    match extractDataBits M (flipSequence M y v) with
    | .error e => .error e
    | .ok d => .ok ⟨flipSequence M y v, d, if v ≠ 0 then some (codewordLen M - v) else none, v != 0⟩

end Sys2Proof.Machine
end

