-- ==== Sys2Proof/Machine/Step.lean ====
section
/-! DEFINITION. Step: one transaction of the caller. -/

namespace Sys2Proof.Machine

/-- One step (44_hamming_core.md R83): the caller presents the next transaction of its list and the block answers it.
With no transaction left nothing happens, since the block never acts on its own. -/
def step (s : State) : Host.Outcome State Fault Refusal :=
  match s.pending with
  | [] => .next s
  | r :: rest =>
    match (s.wires.present r).instrOnPorts r with
    | some i => exec i { s with wires := s.wires.present r, pending := rest }
    | none => .next { s with wires := (s.wires.present r).settleUnit r, pending := rest }

/-- The caller puts the transaction of a table word at the head of its list. Log entries 4 and 12. -/
def State.withFetchWord (s : State) (nbits w : Nat) : State :=
  { s with pending := requestOfTableWord s.params.M s.shape.R s.shape.C nbits w :: s.pending }

end Sys2Proof.Machine
end

