-- ==== Sys2Proof/Safety.lean ====
section
/-! DEFINITION. Safety: what holds of a machine whose wires have settled. -/

namespace Sys2Proof.Machine

/-- Every output wire is the function of the input wires that its unit computes (10_state.md R25). -/
structure Wires.Settled {M R C : Nat} (w : Wires M R C) : Prop where
  core : w.coreOut = hammingCore w.coreIn
  encoder : w.encoder = hammingEncoder w.encoder.dataIn
  matrix : w.matrix = gf2MatrixMultUnit w.matrix.mat w.matrix.vec
  syndrome : w.syndrome = hammingSyndromeCalc w.syndrome.cwIn
  locator : w.locator = hammingErrorLocator w.locator.cwIn w.locator.synIn

/-- The status codes the hardware can produce (60_exceptions.md R96). -/
def Wires.StatusReachable {M R C : Nat} (w : Wires M R C) : Prop :=
  w.coreOut.status = statusOk ∨ w.coreOut.status = statusIllegalOp

/-- `k` steps, stopping where a step does not answer a next state. -/
def run : Nat → State → Result
  | 0, s => .next s
  | k + 1, s =>
    match step s with
    | .next t => run k t
    | .fault e => .fault e
    | .refused e => .refused e

/-- The unit a transaction addresses (00_scope.md R1, 30_encoding.md R47). -/
inductive UnitName where
  | core | encoder | matrix | syndrome | locator
  deriving DecidableEq, Repr

/-- The unit a transaction addresses. -/
def unitOf {M R C : Nat} : Request M R C → UnitName
  | .core _ => .core
  | .locator _ _ => .locator
  | .encoder _ => .encoder
  | .syndrome _ => .syndrome
  | .matrix _ _ => .matrix

end Sys2Proof.Machine
end

