-- ==== Sys2Proof/Certificates/Slice0/Obligations.lean ====
section
/-! DEFINITION. Obligations: the statements about the model, each from the spec's rules. A statement about an
instruction says, in one equation, that `exec` answers a next state, what the driven outputs are, and that every other
field of the state is what it was. -/

open Sys2Proof Sys2Proof.Machine

/-! ## Encoding -/

/-- Requests of the four programs of 95_test_vectors.md and the `LOC` example of 30_encoding.md R46 decode to their
instructions. That a word of 40 bits is read as the request of 35 and one of 16 bits as the `LOC` of 10 is the model's
choice (log entry 12). -/
def Obligations.PublishedWordsDecode : Prop :=
  decodeTableWord 40 0x00000000B = some (.enc (symbols "1011")) ∧
  decodeTableWord 40 0x100000640 = some (.syn (symbols "1100100")) ∧
  decodeTableWord 40 0x200000550 = some (.chk (symbols "1010101")) ∧
  decodeTableWord 40 0x300000510 = some (.dec (symbols "1010001")) ∧
  decodeTableWord 40 0x40000000D = some (.pos (symbols "1101")) ∧
  decodeTableWord 40 0x500000660 = some (.ext (symbols "1100110")) ∧
  decodeTableWord 40 0x6F19AAE40 = some (.mvm (symbols "111100011001101010101") (symbols "1100100")) ∧
  decodeTableWord 40 0x700000000 = some .illegal ∧
  decodeTableWord 16 0b0111010001 = some (.loc (symbols "1010001") (symbols "011"))

/-- Decoding the packed number of a well-formed instruction gives the instruction, whatever its operands. -/
def Obligations.DecodeOfEncodeIsIdentity : Prop :=
  ∀ (M : Nat) (i : Instr), 2 ≤ M → i.wf M = true → decode M (encode M i) = .ok i

/-- Every packed number of the request width decodes, to a well-formed instruction, and encoding that gives the number
back with the fields the operation does not read written as zero (R40). -/
def Obligations.EncodeOfDecodeZeroesUnreadFields : Prop :=
  ∀ (M : Nat) (q : CoreRequest M), ∃ i, decode M q.word = .ok i ∧ i.wf M = true ∧ encode M i = q.zeroUnread.word

/-- The bit numbers of the packed request (R40). -/
def Obligations.PackedRequestBitNumbers : Prop :=
  ∀ (M : Nat) (q : CoreRequest M),
    (∀ i < dataLen M, q.pack.getLsbD i = q.dataIn.getLsbD i) ∧
    (∀ i < codewordLen M, q.pack.getLsbD (dataLen M + i) = q.cwIn.getLsbD i) ∧
    (∀ i < M * codewordLen M, q.pack.getLsbD (dataLen M + codewordLen M + i) = q.matIn.getLsbD i) ∧
    (∀ i < 3, q.pack.getLsbD (dataLen M + codewordLen M + M * codewordLen M + i) = q.op.getLsbD i)

/-- The written string and the bus number the same bits in opposite directions (R32, R33). -/
def Obligations.WrittenStringIsMostSignificantFirst : Prop :=
  ∀ (w : Nat) (b : BitVec w),
    (written b).length = w ∧
    (∀ t < w, (written b)[t]? = some (if b.getLsbD (w - 1 - t) then .one else .zero)) ∧
    busOf w (written b) = b ∧
    ∀ x : List Symbol, x.length = w → Symbol.other ∉ x → written (busOf w x) = x

/-! ## The step -/

/-- A step presents the next transaction on the wires and runs the instruction it decodes to, on the state in which the
transaction is presented and taken off the list. -/
def Obligations.StepRunsDecodedInstruction : Prop :=
  ∀ (s : State) (r : Request s.params.M s.shape.R s.shape.C) (rest : List (Request s.params.M s.shape.R s.shape.C))
    (i : Instr), s.pending = r :: rest → r.instr = some i →
    step s = exec i { s with wires := s.wires.present r, pending := rest }

/-- After placing a table word, the next step runs the instruction the decoder reads from it. -/
def Obligations.StepRunsPlacedTableWord : Prop :=
  ∀ (nbits w : Nat) (i : Instr), decodeTableWord nbits w = some i →
    step (State.reset.withFetchWord nbits w) = exec i
      { State.reset with wires := State.reset.wires.present (requestOfTableWord _ _ _ nbits w) }

/-- The block never acts on its own: with no transaction left a step changes nothing (R83). -/
def Obligations.NothingHappensWithoutTransaction : Prop :=
  ∀ s : State, s.pending = [] → step s = .next s

/-- No step stops: from every state the step answers a next state, in which the configuration fixed at construction is as
it was (R11) and the list, where a transaction was left, has one fewer. With a transaction left this is R82; that a step
with none answers a next state is the model's choice (log entry 4). -/
def Obligations.EveryStepAnswers : Prop :=
  ∀ s : State, ∃ t, step s = .next t ∧ t.params = s.params ∧ t.shape = s.shape ∧
    t.pending.length = s.pending.length - 1

/-- One transaction of `hamming_core`: its outputs are the function of the request, its input wires hold the request,
and nothing else changes but the list (R82). -/
def Obligations.CoreTransactionIsFunctionOfRequest : Prop :=
  ∀ (s : State) (q : CoreRequest s.params.M) (rest : List (Request s.params.M s.shape.R s.shape.C)),
    s.pending = .core q :: rest →
    step s = .next { s with wires := { s.wires with coreIn := q, coreOut := hammingCore q }, pending := rest }

/-- The outputs of `hamming_core` for each value of `op` (R81). -/
def Obligations.CoreOutputsForEachOp : Prop :=
  ∀ (M : Nat) (q : CoreRequest M),
    (q.op = 0b000#3 → hammingCore q = ⟨codeword M q.dataIn, 0, 0, 0, false, false, 0⟩) ∧
    (q.op = 0b001#3 → hammingCore q = ⟨0, 0, syndromeOf M q.cwIn, 0, false, false, 0⟩) ∧
    (q.op = 0b010#3 → hammingCore q = ⟨0, 0, 0, 0, false, syndromeOf M q.cwIn == 0, 0⟩) ∧
    (q.op = 0b011#3 → hammingCore q =
      ⟨flipNamed q.cwIn (syndromeOf M q.cwIn), extractedData M (flipNamed q.cwIn (syndromeOf M q.cwIn)), 0,
        errPos (syndromeOf M q.cwIn), errFlag (syndromeOf M q.cwIn), false, 0⟩) ∧
    (q.op = 0b100#3 → hammingCore q = ⟨positionedBits M q.dataIn, 0, 0, 0, false, false, 0⟩) ∧
    (q.op = 0b101#3 → hammingCore q = ⟨0, extractedData M q.cwIn, 0, 0, false, false, 0⟩) ∧
    (q.op = 0b110#3 → hammingCore q = ⟨0, 0, matrixVector M (codewordLen M) q.matIn q.cwIn, 0, false, false, 0⟩) ∧
    (q.op = 0b111#3 → hammingCore q = ⟨0, 0, 0, 0, false, false, 5⟩)

/-- Inputs an operation does not read do not matter (R42): two requests with the same code that agree on what the code
reads have the same response. -/
def Obligations.IgnoredInputsHaveNoEffect : Prop :=
  ∀ (M : Nat) (op : BitVec 3) (d d' : BitVec (dataLen M)) (c c' : BitVec (codewordLen M))
    (m m' : BitVec (M * codewordLen M)),
    (op ∈ [0b000#3, 0b100#3] → hammingCore ⟨op, d, c, m⟩ = hammingCore ⟨op, d, c', m'⟩) ∧
    (op ∈ [0b001#3, 0b010#3, 0b011#3, 0b101#3] → hammingCore ⟨op, d, c, m⟩ = hammingCore ⟨op, d', c, m'⟩) ∧
    (op = 0b110#3 → hammingCore ⟨op, d, c, m⟩ = hammingCore ⟨op, d', c, m⟩) ∧
    (op = 0b111#3 → hammingCore ⟨op, d, c, m⟩ = hammingCore ⟨op, d', c', m'⟩)

/-- A response does not depend on what went before: whatever values earlier transactions left on the wires, the same
request gets the same response (R37). -/
def Obligations.ResponseIndependentOfHistory : Prop :=
  ∀ (s : State) (before : Wires s.params.M s.shape.R s.shape.C) (q : CoreRequest s.params.M)
    (rest : List (Request s.params.M s.shape.R s.shape.C)), s.pending = .core q :: rest →
    ∃ o, step s = .next { s with wires := { s.wires with coreIn := q, coreOut := o }, pending := rest } ∧
      step { s with wires := before } = .next { s with wires := { before with coreIn := q, coreOut := o }, pending := rest }

/-- Two transactions on different units give the same machine in either order (R37). -/
def Obligations.TransactionsOnDifferentUnitsCommute : Prop :=
  ∀ (s : State) (r q : Request s.params.M s.shape.R s.shape.C) (rest : List (Request s.params.M s.shape.R s.shape.C)),
    unitOf r ≠ unitOf q →
    run 2 { s with pending := r :: q :: rest } =
      run 2 { s with pending := q :: r :: rest }

/-- Every operation is idempotent: the same transaction twice leaves the machine as once (R36). -/
def Obligations.TransactionsAreIdempotent : Prop :=
  ∀ (s : State) (r : Request s.params.M s.shape.R s.shape.C) (rest : List (Request s.params.M s.shape.R s.shape.C)),
    run 2 { s with pending := r :: r :: rest } =
      run 1 { s with pending := r :: rest }

/-- The stand-alone encoder, syndrome unit and matrix unit drive all their outputs at once (R47), and nothing else
moves. -/
def Obligations.StandaloneUnitsDriveAllOutputs : Prop :=
  ∀ (s : State) (rest : List (Request s.params.M s.shape.R s.shape.C)),
    (∀ d, s.pending = .encoder d :: rest →
      step s = .next { s with wires := { s.wires with encoder := ⟨d, positionedBits _ d, codeword _ d⟩ }, pending := rest }) ∧
    (∀ c, s.pending = .syndrome c :: rest →
      step s = .next { s with
        wires := { s.wires with syndrome := ⟨c, syndromeOf _ c, syndromeOf _ c == 0⟩ }, pending := rest }) ∧
    (∀ mat vec, s.pending = .matrix mat vec :: rest →
      ∃ out : BitVec s.shape.R,
        step s = .next { s with wires := { s.wires with matrix := ⟨mat, vec, out⟩ }, pending := rest } ∧
        ∀ i < s.shape.R, out.getLsbD i =
          xorOver (List.range s.shape.C) fun j => mat.getLsbD (i * s.shape.C + j) && vec.getLsbD j)

/-! ## Invariants -/

/-- Every step keeps every output wire the function of its unit's input wires (R25). -/
def Obligations.StepKeepsOutputsSettled : Prop :=
  ∀ s t : State, s.wires.Settled → step s = .next t → t.wires.Settled

/-- As instantiated, whatever the parameters, and so after reset, every output wire is the function of its unit's input
wires (R25, R106). -/
def Obligations.ResetOutputsSettled : Prop :=
  (∀ (p : Params) (sh : Shape), (State.init p sh).wires.Settled) ∧ State.reset.wires.Settled

/-- The hardware produces no status but 0 and 5 (R96): every step keeps it so. -/
def Obligations.StatusIsOkOrIllegalOp : Prop :=
  ∀ s t : State, s.wires.StatusReachable → step s = .next t → t.wires.StatusReachable

/-! ## The operations -/

/-- `ENC` (R53): the data bits at the data positions, each parity bit the XOR of the data bits it covers, every other
output zero, nothing else changed; `hamming_encoder` drives the same word on `cw_out`. -/
def Obligations.EncodeDrivesCodeword : Prop :=
  ∀ (s : State) (d : BitVec (dataLen s.params.M)), ∃ cw : BitVec (codewordLen s.params.M),
    exec (.enc (written d)) s =
      .next { s with wires := { s.wires with coreOut := ⟨cw, 0, 0, 0, false, false, 0⟩ } } ∧
    (hammingEncoder d).cwOut = cw ∧
    (∀ r < dataLen s.params.M, cw.getLsbD (dpos s.params.M r - 1) = d.getLsbD r) ∧
    (∀ p < s.params.M, cw.getLsbD (2 ^ p - 1) =
      xorOver ((List.range (dataLen s.params.M)).filter fun r => (dpos s.params.M r).testBit p) fun r => d.getLsbD r)

/-- `POS` (R51): the data bits at the data positions, zero at the parity positions, every other output zero, nothing
else changed; `hamming_encoder` drives the same word on `pos_out`. -/
def Obligations.PositionDrivesDataBits : Prop :=
  ∀ (s : State) (d : BitVec (dataLen s.params.M)), ∃ cw : BitVec (codewordLen s.params.M),
    exec (.pos (written d)) s =
      .next { s with wires := { s.wires with coreOut := ⟨cw, 0, 0, 0, false, false, 0⟩ } } ∧
    (hammingEncoder d).posOut = cw ∧
    (∀ r < dataLen s.params.M, cw.getLsbD (dpos s.params.M r - 1) = d.getLsbD r) ∧
    (∀ p < s.params.M, cw.getLsbD (2 ^ p - 1) = false)

/-- `MVM` (R61): output bit `i` of the matrix unit is the XOR of the products of row `i` with the vector, for every shape;
`hamming_core` drives the unit's product for its two operands on `syn_out`. -/
def Obligations.MatrixVectorDrivesProduct : Prop :=
  (∀ (R C : Nat) (mat : BitVec (R * C)) (vec : BitVec C), ∀ i < R, (gf2MatrixMultUnit mat vec).out.getLsbD i =
    xorOver (List.range C) fun j => mat.getLsbD (i * C + j) && vec.getLsbD j) ∧
  ∀ (s : State) (m : BitVec (s.params.M * codewordLen s.params.M)) (v : BitVec (codewordLen s.params.M)),
    exec (.mvm (written m) (written v)) s =
      .next { s with wires := { s.wires with
        coreOut := ⟨0, 0, (gf2MatrixMultUnit m v).out, 0, false, false, 0⟩ } }

/-- `SYN` (R66): syndrome bit `i` is the XOR of the codeword bits at the positions in `1..N` with bit `i` set;
`hamming_syndrome_calc` drives the same on `syn`. -/
def Obligations.SyndromeDrivesParityOfPositions : Prop :=
  ∀ (s : State) (c : BitVec (codewordLen s.params.M)), ∃ syn : BitVec s.params.M,
    exec (.syn (written c)) s =
      .next { s with wires := { s.wires with coreOut := ⟨0, 0, syn, 0, false, false, 0⟩ } } ∧
    (hammingSyndromeCalc c).syn = syn ∧
    ∀ i < s.params.M, syn.getLsbD i =
      xorOver ((List.range' 1 (codewordLen s.params.M)).filter fun j => j.testBit i) fun j => c.getLsbD (j - 1)

/-- `CHK` (R68): `ok` is 1 exactly when the syndrome that `SYN` drives for the same word is zero. -/
def Obligations.CheckDrivesZeroTest : Prop :=
  ∀ (s : State) (c : BitVec (codewordLen s.params.M)), ∃ (syn : BitVec s.params.M) (ok : Bool),
    exec (.syn (written c)) s =
      .next { s with wires := { s.wires with coreOut := ⟨0, 0, syn, 0, false, false, 0⟩ } } ∧
    exec (.chk (written c)) s =
      .next { s with wires := { s.wires with coreOut := ⟨0, 0, 0, 0, false, ok, 0⟩ } } ∧
    (ok = true ↔ ∀ i < s.params.M, syn.getLsbD i = false)

/-- `EXT` (R71): data bit `r` is the codeword bit at position `dpos(r)`. -/
def Obligations.ExtractDrivesDataBits : Prop :=
  ∀ (s : State) (c : BitVec (codewordLen s.params.M)), ∃ d : BitVec (dataLen s.params.M),
    exec (.ext (written c)) s =
      .next { s with wires := { s.wires with coreOut := ⟨0, d, 0, 0, false, false, 0⟩ } } ∧
    ∀ r < dataLen s.params.M, d.getLsbD r = c.getLsbD (dpos s.params.M r - 1)

/-- `LOC` (R72, R73, R74) on the stand-alone locator: the named bit is inverted, the data word is extracted from the
result, the index and the flag tell of it; only the locator's outputs move. -/
def Obligations.LocateFlipsNamedBit : Prop :=
  ∀ (s : State) (c : BitVec (codewordLen s.params.M)) (v : BitVec s.params.M),
    ∃ (corr : BitVec (codewordLen s.params.M)) (d : BitVec (dataLen s.params.M)) (pos : BitVec s.params.M) (flag : Bool),
      exec (.loc (written c) (written v)) s =
        .next { s with wires := { s.wires with
          locator := ⟨s.wires.locator.cwIn, s.wires.locator.synIn, corr, d, pos, flag⟩ } } ∧
      (∀ k < codewordLen s.params.M,
        corr.getLsbD k = if k + 1 = v.toNat then !c.getLsbD k else c.getLsbD k) ∧
      (∀ r < dataLen s.params.M, d.getLsbD r = corr.getLsbD (dpos s.params.M r - 1)) ∧
      pos.toNat = (codewordLen s.params.M - v.toNat) % 2 ^ s.params.M ∧
      (flag = true ↔ v.toNat ≠ 0)

/-- `DEC` (R75): the locator's four results for the syndrome that `SYN` drives for the same word. -/
def Obligations.DecodeFlipsSyndromePosition : Prop :=
  ∀ (s : State) (c : BitVec (codewordLen s.params.M)),
    ∃ (v : BitVec s.params.M) (corr : BitVec (codewordLen s.params.M)) (d : BitVec (dataLen s.params.M))
      (pos : BitVec s.params.M) (flag : Bool),
      exec (.syn (written c)) s =
        .next { s with wires := { s.wires with coreOut := ⟨0, 0, v, 0, false, false, 0⟩ } } ∧
      exec (.dec (written c)) s =
        .next { s with wires := { s.wires with coreOut := ⟨corr, d, 0, pos, flag, false, 0⟩ } } ∧
      (∀ k < codewordLen s.params.M,
        corr.getLsbD k = if k + 1 = v.toNat then !c.getLsbD k else c.getLsbD k) ∧
      (∀ r < dataLen s.params.M, d.getLsbD r = corr.getLsbD (dpos s.params.M r - 1)) ∧
      pos.toNat = (codewordLen s.params.M - v.toNat) % 2 ^ s.params.M ∧
      (flag = true ↔ v.toNat ≠ 0)

/-- The reserved code (R44): it is `111` and no other, whatever the operands; `IllegalOp` on `status`, all other outputs
zero. -/
def Obligations.ReservedCodeReportsIllegalOp : Prop :=
  (∀ s : State, exec .illegal s =
    .next { s with wires := { s.wires with coreOut := ⟨0, 0, 0, 0, false, false, 5⟩ } }) ∧
  ∀ (M : Nat) (q : CoreRequest M), q.instr = .illegal ↔ q.op = 0b111#3

/-- What an operation leaves unchanged, on every operand, well-formed or not: an operation of `hamming_core` moves
nothing but `coreOut`, `LOC` nothing but the four outputs of the stand-alone locator. -/
def Obligations.OperationsDriveOnlyTheirOutputs : Prop :=
  (∀ (i : Instr) (s t : State), (∀ cw synIn, i ≠ .loc cw synIn) → exec i s = .next t →
    ∃ o, t = { s with wires := { s.wires with coreOut := o } }) ∧
  (∀ (cw synIn : List Symbol) (s t : State), exec (.loc cw synIn) s = .next t →
    ∃ corr d pos flag, t = { s with
      wires := { s.wires with locator := ⟨s.wires.locator.cwIn, s.wires.locator.synIn, corr, d, pos, flag⟩ } })

/-- The model's choice (log entry 6): on an operand of the wrong length, or of the right length with a symbol that is no
bit, an operation of `hamming_core` reports the code of the source's error on `status`, all other outputs zero. -/
def Obligations.IllFormedOperandsAreReported : Prop :=
  ∀ (s : State) (x y : List Symbol),
    (x.length ≠ dataLen s.params.M → ∀ i ∈ [Instr.enc x, .pos x],
      exec i s = .next { s with wires := { s.wires with coreOut := ⟨0, 0, 0, 0, false, false, 2⟩ } }) ∧
    (x.length = dataLen s.params.M → Symbol.other ∈ x → ∀ i ∈ [Instr.enc x, .pos x],
      exec i s = .next { s with wires := { s.wires with coreOut := ⟨0, 0, 0, 0, false, false, 3⟩ } }) ∧
    (x.length ≠ codewordLen s.params.M → ∀ i ∈ [Instr.syn x, .chk x, .dec x, .ext x],
      exec i s = .next { s with wires := { s.wires with coreOut := ⟨0, 0, 0, 0, false, false, 2⟩ } }) ∧
    (x.length = codewordLen s.params.M → Symbol.other ∈ x → ∀ i ∈ [Instr.syn x, .chk x, .dec x, .ext x],
      exec i s = .next { s with wires := { s.wires with coreOut := ⟨0, 0, 0, 0, false, false, 3⟩ } }) ∧
    (x.length ≠ s.params.M * codewordLen s.params.M ∨ y.length ≠ codewordLen s.params.M →
      exec (.mvm x y) s = .next { s with wires := { s.wires with coreOut := ⟨0, 0, 0, 0, false, false, 4⟩ } }) ∧
    (x.length = s.params.M * codewordLen s.params.M → y.length = codewordLen s.params.M →
      Symbol.other ∈ x ∨ Symbol.other ∈ y →
      exec (.mvm x y) s = .next { s with wires := { s.wires with coreOut := ⟨0, 0, 0, 0, false, false, 3⟩ } })

/-- The model's choice (log entry 7): on operands the locator's ports cannot carry, `LOC` stops with the source's error,
the length before the symbols. -/
def Obligations.LocateStopsOnIllFormedOperands : Prop :=
  ∀ (s : State) (x y : List Symbol),
    (x.length ≠ codewordLen s.params.M ∨ y.length ≠ s.params.M → exec (.loc x y) s = .fault .lengthMismatch) ∧
    (x.length = codewordLen s.params.M → y.length = s.params.M → Symbol.other ∈ x ∨ Symbol.other ∈ y →
      exec (.loc x y) s = .fault .invalidCharacter)

/-! ## Positions and constants -/

/-- `dpos` lists, in increasing order, exactly the positions in `1..N` that are no power of two; there are `K` of them;
the others are `2^p` for `p < M` (R15). -/
def Obligations.DataPositionsAreNonPowersOfTwo : Prop :=
  ∀ M : Nat,
    (∀ q r, q < r → r < dataLen M → dpos M q < dpos M r) ∧
    (∀ j, (∃ r < dataLen M, dpos M r = j) ↔ (1 ≤ j ∧ j ≤ codewordLen M ∧ ∀ p, j ≠ 2 ^ p)) ∧
    (∀ j, (∃ p < M, j = 2 ^ p) ↔ (1 ≤ j ∧ j ≤ codewordLen M ∧ ∃ p, j = 2 ^ p))

/-- The closed form of `dpos` (R15): `dpos(r)` is the one `j` that is no power of two and has `r + 1` numbers at or
below it besides the `floor(log2 j) + 1` powers of two. -/
def Obligations.DataPositionClosedForm : Prop :=
  ∀ M r : Nat, r < dataLen M → ∀ j : Nat,
    j = dpos M r ↔ (∀ p, j ≠ 2 ^ p) ∧ j = r + 1 + (j.log2 + 1)

/-- Parity bit `p` covers exactly `2^(M-1) - 1` data positions (R54). -/
def Obligations.EachParityBitCoversHalfOfPositions : Prop :=
  ∀ M p : Nat, p < M →
    ((List.range (dataLen M)).filter fun r => (dpos M r).testBit p).length = 2 ^ (M - 1) - 1

/-- The constant `H` on the matrix bus, the syndrome unit is the matrix unit with it, and `MVM` with it gives what `SYN`
gives (R63). -/
def Obligations.MatrixUnitWithCheckMatrixIsSyndrome : Prop :=
  (∀ M i c : Nat, i < M → c < codewordLen M →
    (checkMatrixBus M).getLsbD (i * codewordLen M + c) = (c + 1).testBit i) ∧
  (checkMatrixBus 3).toNat = 0x1E3355 ∧
  (∀ (M : Nat) (c : BitVec (codewordLen M)),
    (hammingSyndromeCalc c).syn = (gf2MatrixMultUnit (checkMatrixBus M) c).out) ∧
  ∀ (s : State) (c : BitVec (codewordLen s.params.M)),
    exec (.mvm (written (checkMatrixBus s.params.M)) (written c)) s = exec (.syn (written c)) s

/-- The product over GF(2) is linear in the vector and in the matrix, and its element `i` is the count of ones, modulo 2,
of the bitwise AND of row `i` with the vector (R62). -/
def Obligations.MatrixProductIsLinear : Prop :=
  ∀ (R C : Nat) (A B : BitVec (R * C)) (v u : BitVec C),
    matrixVector R C A (v ^^^ u) = matrixVector R C A v ^^^ matrixVector R C A u ∧
    matrixVector R C (A ^^^ B) v = matrixVector R C A v ^^^ matrixVector R C B v ∧
    ∀ i < R, ((matrixVector R C A v).getLsbD i).toNat =
      ((List.range C).filter fun j => A.getLsbD (i * C + j) && v.getLsbD j).length % 2

/-- `x . G` is the codeword rearranged: the data positions in increasing order, then the parity positions. As written
strings the two are equal for `M = 2` and, for a larger `M`, differ for some data word (R17). -/
def Obligations.GeneratorProductIsRearrangedCodeword : Prop :=
  (∀ (d : BitVec (dataLen 2)) (c : Nat), c < codewordLen 2 →
    generatorProduct 2 d c = (codeword 2 d).getLsbD (codewordLen 2 - 1 - c) ∧
    generatorProduct 2 d c = d.getLsbD 0) ∧
  (∀ M : Nat, 3 ≤ M → ∃ d : BitVec (dataLen M), ∃ c < codewordLen M,
    generatorProduct M d c ≠ (codeword M d).getLsbD (codewordLen M - 1 - c)) ∧
  ∀ (M : Nat) (d : BitVec (dataLen M)),
    (∀ c < dataLen M, generatorProduct M d c = d.getLsbD c ∧
      generatorProduct M d c = (codeword M d).getLsbD (dpos M c - 1)) ∧
    (∀ i < M, generatorProduct M d (dataLen M + i) =
        xorOver (List.range (dataLen M)) (fun r => d.getLsbD r && (dpos M r).testBit i) ∧
      generatorProduct M d (dataLen M + i) = (codeword M d).getLsbD (2 ^ i - 1))

/-! ## The code -/

/-- Properties of `ENC` (R55): it passes the check, extraction undoes it, it is linear, it keeps zero and all ones, it is
injective, and its values are exactly the words with syndrome zero. -/
def Obligations.EncodeProperties : Prop :=
  ∀ M : Nat, 2 ≤ M →
    (∀ d, syndromeOf M (codeword M d) = 0) ∧
    (∀ d, extractedData M (codeword M d) = d) ∧
    (∀ a b, codeword M (a ^^^ b) = codeword M a ^^^ codeword M b) ∧
    codeword M 0 = 0 ∧
    codeword M (BitVec.allOnes _) = BitVec.allOnes _ ∧
    (∀ a b, codeword M a = codeword M b → a = b) ∧
    (∀ w, syndromeOf M w = 0 ↔ ∃ d, codeword M d = w)

/-- Values of the syndrome (R67). -/
def Obligations.SyndromeNamesXorOfPositions : Prop :=
  ∀ M : Nat, 2 ≤ M →
    (∀ a b, syndromeOf M (a ^^^ b) = syndromeOf M a ^^^ syndromeOf M b) ∧
    (∀ j, 1 ≤ j → j ≤ codewordLen M → (syndromeOf M (BitVec.twoPow _ (j - 1))).toNat = j) ∧
    (∀ c e, syndromeOf M c = 0 → (syndromeOf M (c ^^^ e)).toNat =
      ((List.range' 1 (codewordLen M)).filter fun j => e.getLsbD (j - 1)).foldr (· ^^^ ·) 0) ∧
    (∀ c a b, syndromeOf M c = 0 → 1 ≤ a → a ≤ codewordLen M → 1 ≤ b → b ≤ codewordLen M → a ≠ b →
      (syndromeOf M (c ^^^ BitVec.twoPow _ (a - 1) ^^^ BitVec.twoPow _ (b - 1))).toNat = a ^^^ b ∧
      a ^^^ b ≠ 0 ∧ a ^^^ b ≠ a ∧ a ^^^ b ≠ b ∧
      syndromeOf M (c ^^^ BitVec.twoPow _ (a - 1) ^^^ BitVec.twoPow _ (b - 1) ^^^ BitVec.twoPow _ ((a ^^^ b) - 1)) = 0) ∧
    (∀ c, (syndromeOf M c).toNat ≤ codewordLen M) ∧
    syndromeOf M 0 = 0 ∧ syndromeOf M (BitVec.allOnes _) = 0

/-- The words that pass `CHK` are exactly the words `ENC` drives, each the encoding of its own extraction (R69). -/
def Obligations.WordsThatPassAreCodewords : Prop :=
  ∀ (s : State) (w : BitVec (codewordLen s.params.M)),
    exec (.chk (written w)) s =
        .next { s with wires := { s.wires with coreOut := ⟨0, 0, 0, 0, false, true, 0⟩ } } ↔
      exec (.enc (written (extractedData s.params.M w))) s =
        .next { s with wires := { s.wires with coreOut := ⟨w, 0, 0, 0, false, false, 0⟩ } }

/-- Every word is a codeword or at distance one from exactly one codeword (R69). -/
def Obligations.EveryWordIsNearExactlyOneCodeword : Prop :=
  ∀ (M : Nat) (w : BitVec (codewordLen M)), 2 ≤ M →
    (syndromeOf M w = 0 ∧ ∀ k < codewordLen M, syndromeOf M (w ^^^ BitVec.twoPow _ k) ≠ 0) ∨
    (syndromeOf M w ≠ 0 ∧ ∃ k < codewordLen M, syndromeOf M (w ^^^ BitVec.twoPow _ k) = 0 ∧
      ∀ l < codewordLen M, syndromeOf M (w ^^^ BitVec.twoPow _ l) = 0 → l = k)

/-- Single-error correction (R77): whatever bit of the codeword is flipped, named by its index from the left, `DEC`
restores the codeword and the data word, raises the flag and reports that index. -/
def Obligations.SingleErrorsAreCorrected : Prop :=
  ∀ (s : State) (d : BitVec (dataLen s.params.M)), ∃ c : BitVec (codewordLen s.params.M),
    exec (.enc (written d)) s =
      .next { s with wires := { s.wires with coreOut := ⟨c, 0, 0, 0, false, false, 0⟩ } } ∧
    ∀ p < codewordLen s.params.M,
      exec (.dec (written (c ^^^ BitVec.twoPow _ (codewordLen s.params.M - 1 - p)))) s =
        .next { s with wires := { s.wires with coreOut := ⟨c, d, 0, BitVec.ofNat _ p, true, false, 0⟩ } }

/-- No-error idempotence and parity flips (R77): an intact codeword comes back with its data word, no flag and the
sentinel. -/
def Obligations.IntactCodewordsComeBack : Prop :=
  ∀ (s : State) (d : BitVec (dataLen s.params.M)), ∃ c : BitVec (codewordLen s.params.M),
    exec (.enc (written d)) s =
      .next { s with wires := { s.wires with coreOut := ⟨c, 0, 0, 0, false, false, 0⟩ } } ∧
    exec (.dec (written c)) s =
      .next { s with wires := { s.wires with coreOut := ⟨c, d, 0, BitVec.allOnes _, false, false, 0⟩ } } ∧
    exec (.chk (written c)) s =
      .next { s with wires := { s.wires with coreOut := ⟨0, 0, 0, 0, false, true, 0⟩ } } ∧
    exec (.ext (written c)) s =
      .next { s with wires := { s.wires with coreOut := ⟨0, d, 0, 0, false, false, 0⟩ } }

/-- What `DEC` drives always passes `CHK`, whatever word it was given, and decoding it again reports no error
(R77 (a)). -/
def Obligations.DecodedWordsPassTheCheck : Prop :=
  ∀ (s : State) (w : BitVec (codewordLen s.params.M)), ∃ o : CoreResponse s.params.M,
    exec (.dec (written w)) s = .next { s with wires := { s.wires with coreOut := o } } ∧
    exec (.chk (written o.cwOut)) s =
      .next { s with wires := { s.wires with coreOut := ⟨0, 0, 0, 0, false, true, 0⟩ } } ∧
    exec (.dec (written o.cwOut)) s =
      .next { s with wires := { s.wires with
        coreOut := ⟨o.cwOut, o.dataOut, 0, BitVec.allOnes _, false, false, 0⟩ } }

/-- A double error is miscorrected, not detected (R77 (c)): a third position is flipped, the flag is raised, and the data
word is always wrong. -/
def Obligations.DoubleErrorsAreMiscorrected : Prop :=
  ∀ (s : State) (d : BitVec (dataLen s.params.M)) (a b : Nat),
    1 ≤ a → a ≤ codewordLen s.params.M → 1 ≤ b → b ≤ codewordLen s.params.M → a ≠ b →
    ∃ (w c : BitVec (codewordLen s.params.M)) (d' : BitVec (dataLen s.params.M)),
      w = codeword s.params.M d ^^^ BitVec.twoPow _ (a - 1) ^^^ BitVec.twoPow _ (b - 1) ∧
      exec (.dec (written w)) s =
        .next { s with wires := { s.wires with
          coreOut := ⟨c, d', 0, BitVec.ofNat _ (codewordLen s.params.M - (a ^^^ b)), true, false, 0⟩ } } ∧
      c = w ^^^ BitVec.twoPow _ ((a ^^^ b) - 1) ∧
      codeword s.params.M d' = c ∧
      d' ≠ d

/-- An error pattern whose position numbers XOR to zero passes through unchanged and unflagged (R77 (d)). -/
def Obligations.CancellingErrorsPassUnseen : Prop :=
  ∀ (s : State) (d : BitVec (dataLen s.params.M)) (e : BitVec (codewordLen s.params.M)),
    ((List.range' 1 (codewordLen s.params.M)).filter fun j => e.getLsbD (j - 1)).foldr (· ^^^ ·) 0 = 0 →
    ∃ d', exec (.dec (written (codeword s.params.M d ^^^ e))) s =
      .next { s with wires := { s.wires with
        coreOut := ⟨codeword s.params.M d ^^^ e, d', 0, BitVec.allOnes _, false, false, 0⟩ } }

/-- The reported index is the complement of the syndrome, and names the flipped bit from the left (R74). -/
def Obligations.ErrorIndexIsComplementOfSyndrome : Prop :=
  ∀ (M : Nat) (v : BitVec M),
    (errPos v).toNat = (codewordLen M - v.toNat) % 2 ^ M ∧ errPos v = ~~~v ∧
    (v ≠ 0 → (errPos v).toNat < codewordLen M ∧ (errPos v).toNat = codewordLen M - v.toNat) ∧
    (v = 0 → (errPos v).toNat = 2 ^ M - 1)

/-- Extraction undoes placement and encoding, and does not look at the parity positions (R71, R84). -/
def Obligations.ExtractionIgnoresParityPositions : Prop :=
  ∀ M : Nat,
    (∀ d, extractedData M (positionedBits M d) = d ∧ extractedData M (codeword M d) = d) ∧
    (∀ c p, p < M → extractedData M (c ^^^ BitVec.twoPow _ (2 ^ p - 1)) = extractedData M c) ∧
    (∀ a b, extractedData M (a ^^^ b) = extractedData M a ^^^ extractedData M b) ∧
    (∀ d, ∀ p < M, (positionedBits M d).getLsbD (2 ^ p - 1) = false ∧
      (syndromeOf M (positionedBits M d)).getLsbD p = (codeword M d).getLsbD (2 ^ p - 1))

/-- The relations between the operations that hold for all operands (R84), between the responses of `hamming_core`. -/
def Obligations.OperationsAreRelated : Prop :=
  ∀ (p : Params) (d : BitVec (dataLen p.M)) (c : BitVec (codewordLen p.M)),
    let ENC := hammingCore (M := p.M) ⟨0b000#3, d, 0, 0⟩
    let POS := hammingCore (M := p.M) ⟨0b100#3, d, 0, 0⟩
    let SYN := hammingCore (M := p.M) ⟨0b001#3, 0, c, 0⟩
    let DEC := hammingCore (M := p.M) ⟨0b011#3, 0, c, 0⟩
    let EXT := fun w => (hammingCore (M := p.M) ⟨0b101#3, 0, w, 0⟩).dataOut
    let CHK := fun w => (hammingCore (M := p.M) ⟨0b010#3, 0, w, 0⟩).ok
    (∃ parity : BitVec (codewordLen p.M), (∀ r < dataLen p.M, parity.getLsbD (dpos p.M r - 1) = false) ∧
      (∀ q < p.M, parity.getLsbD (2 ^ q - 1) = parityBit p.M d q) ∧ ENC.cwOut = POS.cwOut ^^^ parity) ∧
    EXT ENC.cwOut = d ∧ EXT POS.cwOut = d ∧
    (CHK c = true ↔ SYN.synOut = 0) ∧
    DEC.errFlag = !CHK c ∧
    DEC.cwOut = (if SYN.synOut = 0 then c else c ^^^ BitVec.twoPow _ (SYN.synOut.toNat - 1)) ∧
    DEC.dataOut = EXT DEC.cwOut ∧
    DEC.errPos = ~~~SYN.synOut ∧
    (hammingCore (M := p.M) ⟨0b110#3, 0, c, checkMatrixBus p.M⟩).synOut = SYN.synOut ∧
    CHK DEC.cwOut = true ∧
    hammingCore (M := p.M) ⟨0b011#3, 0, ENC.cwOut, 0⟩ = ⟨ENC.cwOut, d, 0, BitVec.allOnes _, false, false, 0⟩

/-! ## The sequence level -/

/-- `positionBits` (R50) on a data word is `POS` of its bus. -/
def Obligations.PositionBitsAgreesWithPort : Prop :=
  ∀ (M : Nat) (d : BitVec (dataLen M)), positionBits M (written d) = .ok (written (positionedBits M d))

/-- `encode` (R52), a loop over the word as it stands, is `ENC` of the bus (R54). -/
def Obligations.EncodeAgreesWithPort : Prop :=
  ∀ (M : Nat) (d : BitVec (dataLen M)), encodeSequence M (written d) = .ok (written (codeword M d))

/-- `extractDataBits` (R70) on a codeword is `EXT` of its bus. -/
def Obligations.ExtractDataBitsAgreesWithPort : Prop :=
  ∀ (M : Nat) (c : BitVec (codewordLen M)), extractDataBits M (written c) = .ok (written (extractedData M c))

/-- `detectError` (R65) is the unsigned value of `SYN` of the bus, and `check` (R68) is its test for zero. -/
def Obligations.DetectErrorAgreesWithPort : Prop :=
  ∀ (M : Nat) (c : BitVec (codewordLen M)),
    detectError M (written c) = .ok (syndromeOf M c).toNat ∧
    checkSequence M (written c) = .ok (syndromeOf M c == 0)

/-- `decode` (R76) is `DEC` of the bus, the sentinel written `none`. -/
def Obligations.DecodeAgreesWithPort : Prop :=
  ∀ (M : Nat) (c : BitVec (codewordLen M)),
    decodeSequence M (written c) = .ok
      { corrected := written (decResponse c).cwOut
        data := written (decResponse c).dataOut
        errorPosition := if (decResponse c).errFlag then some (decResponse c).errPos.toNat else none
        errorFlag := (decResponse c).errFlag }

/-- `matrixVectorProduct` (R60) on a matrix and a vector of bits is the matrix unit on their buses (R61). -/
def Obligations.MatrixVectorProductAgreesWithPort : Prop :=
  ∀ (R C : Nat) (mat : BitVec (R * C)) (vec : BitVec C) (m : SymbolMatrix),
    m.cols = C →
    m.rows = (List.range R).map (fun i => (List.range C).map fun j => .ofBool (mat.getLsbD (i * C + j))) →
    matrixVectorProduct m ((List.range C).map fun j => .ofBool (vec.getLsbD j)) =
      .ok ((List.range R).map fun i => .ofBool ((matrixVector R C mat vec).getLsbD i))

/-- `LengthMismatch` (R93): raised by these operations on every other length, too short or too long, whatever the
symbols, and on nothing else (R97). -/
def Obligations.WrongLengthIsLengthMismatch : Prop :=
  ∀ (M : Nat) (x : List Symbol),
    (positionBits M x = .error .lengthMismatch ↔ x.length ≠ dataLen M) ∧
    (encodeSequence M x = .error .lengthMismatch ↔ x.length ≠ dataLen M) ∧
    (extractDataBits M x = .error .lengthMismatch ↔ x.length ≠ codewordLen M) ∧
    (detectError M x = .error .lengthMismatch ↔ x.length ≠ codewordLen M) ∧
    (checkSequence M x = .error .lengthMismatch ↔ x.length ≠ codewordLen M) ∧
    (decodeSequence M x = .error .lengthMismatch ↔ x.length ≠ codewordLen M)

/-- `InvalidCharacter` (R94): raised on a symbol that is no bit, once the length or the shape is right (R97), and on
nothing else; every character but '0' and '1' is such a symbol. -/
def Obligations.BadSymbolIsInvalidCharacter : Prop :=
  (∀ ch : Char, Symbol.ofChar ch = .other ↔ ch ≠ '0' ∧ ch ≠ '1') ∧
  (∀ (M : Nat) (x : List Symbol),
    (positionBits M x = .error .invalidCharacter ↔ x.length = dataLen M ∧ Symbol.other ∈ x) ∧
    (encodeSequence M x = .error .invalidCharacter ↔ x.length = dataLen M ∧ Symbol.other ∈ x) ∧
    (extractDataBits M x = .error .invalidCharacter ↔ x.length = codewordLen M ∧ Symbol.other ∈ x) ∧
    (detectError M x = .error .invalidCharacter ↔ x.length = codewordLen M ∧ Symbol.other ∈ x) ∧
    (checkSequence M x = .error .invalidCharacter ↔ x.length = codewordLen M ∧ Symbol.other ∈ x) ∧
    (decodeSequence M x = .error .invalidCharacter ↔ x.length = codewordLen M ∧ Symbol.other ∈ x)) ∧
  ∀ (m : SymbolMatrix) (v : List Symbol), matrixVectorProduct m v = .error .invalidCharacter ↔
    v.length = m.cols ∧ (Symbol.other ∈ v ∨ ∃ row ∈ m.rows, Symbol.other ∈ row)

/-- `ShapeMismatch` (R92): raised by `matrixVectorProduct` on a vector that is not as long as a row, whatever its
symbols, and by nothing else. -/
def Obligations.ShapeMismatchOnlyFromMatrixProduct : Prop :=
  (∀ (m : SymbolMatrix) (v : List Symbol), matrixVectorProduct m v = .error .shapeMismatch ↔ v.length ≠ m.cols) ∧
  ∀ (M : Nat) (x : List Symbol),
    positionBits M x ≠ .error .shapeMismatch ∧ encodeSequence M x ≠ .error .shapeMismatch ∧
    extractDataBits M x ≠ .error .shapeMismatch ∧ detectError M x ≠ .error .shapeMismatch ∧
    checkSequence M x ≠ .error .shapeMismatch ∧ decodeSequence M x ≠ .error .shapeMismatch

/-- `Construct` (R98, R105): refused exactly below 2, else the instance with `M` parity bits, `N = 2^M - 1`, `K = N - M`
and `0 < K`. -/
def Obligations.ConstructNeedsTwoParityBits : Prop :=
  (∀ p : Int, construct p = .error .invalidParameter ↔ p < 2) ∧
  (∀ p : Int, 2 ≤ p → ∃ c, construct p = .ok c ∧ (c.M : Int) = p ∧ codewordLen c.M = 2 ^ c.M - 1 ∧
    dataLen c.M + c.M = codewordLen c.M ∧ 0 < dataLen c.M)

/-- The numbers of the errors, and which of them the ports can show: 5 for the reserved code, 0 for every other request
(R91). -/
def Obligations.ErrorCodesAreNumbered : Prop :=
  statusOk = 0 ∧ Fault.code .invalidParameter = 1 ∧ Fault.code .lengthMismatch = 2 ∧
    Fault.code .invalidCharacter = 3 ∧ Fault.code .shapeMismatch = 4 ∧ statusIllegalOp = 5 ∧
  ∀ (M : Nat) (q : CoreRequest M), (hammingCore q).status = if q.op = 0b111#3 then 5 else 0
end

