-- ==== Sys2Proof/Laws/State.lean ====
section
/-! SUPPORT. State: what each update of the wires does to each field. -/

namespace Sys2Proof.Machine

variable {M R C : Nat} (w : Wires M R C)

/-! ## `respond` -/

@[simp] theorem respond_coreIn (o : CoreResponse M) : (w.respond o).coreIn = w.coreIn := rfl
@[simp] theorem respond_coreOut (o : CoreResponse M) : (w.respond o).coreOut = o := rfl
@[simp] theorem respond_encoder (o : CoreResponse M) : (w.respond o).encoder = w.encoder := rfl
@[simp] theorem respond_matrix (o : CoreResponse M) : (w.respond o).matrix = w.matrix := rfl
@[simp] theorem respond_syndrome (o : CoreResponse M) : (w.respond o).syndrome = w.syndrome := rfl
@[simp] theorem respond_locator (o : CoreResponse M) : (w.respond o).locator = w.locator := rfl

/-! ## `report` -/

@[simp] theorem report_coreIn (code : BitVec 3) : (w.report code).coreIn = w.coreIn := rfl
@[simp] theorem report_coreOut (code : BitVec 3) : (w.report code).coreOut = { CoreResponse.zero M with status := code } := rfl
@[simp] theorem report_encoder (code : BitVec 3) : (w.report code).encoder = w.encoder := rfl
@[simp] theorem report_matrix (code : BitVec 3) : (w.report code).matrix = w.matrix := rfl
@[simp] theorem report_syndrome (code : BitVec 3) : (w.report code).syndrome = w.syndrome := rfl
@[simp] theorem report_locator (code : BitVec 3) : (w.report code).locator = w.locator := rfl

/-! ## `respondLocator` -/

@[simp] theorem respondLocator_coreIn (o : LocatorPorts M) : (w.respondLocator o).coreIn = w.coreIn := rfl
@[simp] theorem respondLocator_coreOut (o : LocatorPorts M) : (w.respondLocator o).coreOut = w.coreOut := rfl
@[simp] theorem respondLocator_encoder (o : LocatorPorts M) : (w.respondLocator o).encoder = w.encoder := rfl
@[simp] theorem respondLocator_matrix (o : LocatorPorts M) : (w.respondLocator o).matrix = w.matrix := rfl
@[simp] theorem respondLocator_syndrome (o : LocatorPorts M) : (w.respondLocator o).syndrome = w.syndrome := rfl
@[simp] theorem respondLocator_locator (o : LocatorPorts M) : (w.respondLocator o).locator = { o with cwIn := w.locator.cwIn, synIn := w.locator.synIn } := rfl

/-! ## `present`: only the input wires of the addressed unit move -/

section
variable (q : CoreRequest M) (c : BitVec (codewordLen M)) (v : BitVec M) (d : BitVec (dataLen M))
  (mat : BitVec (R * C)) (vec : BitVec C)

@[simp] theorem present_core : w.present (.core q) = { w with coreIn := q } := rfl
@[simp] theorem present_locator :
    w.present (.locator c v) = { w with locator := { w.locator with cwIn := c, synIn := v } } := rfl
@[simp] theorem present_encoder : w.present (.encoder d) = { w with encoder := { w.encoder with dataIn := d } } := rfl
@[simp] theorem present_syndrome : w.present (.syndrome c) = { w with syndrome := { w.syndrome with cwIn := c } } := rfl
@[simp] theorem present_matrix :
    w.present (.matrix mat vec) = { w with matrix := { w.matrix with mat := mat, vec := vec } } := rfl
end

@[simp] theorem present_coreOut (r : Request M R C) : (w.present r).coreOut = w.coreOut := by cases r <;> rfl

/-- The wires of the addressed unit carry the request, so the unit finds the request's own instruction there. -/
@[simp] theorem instrOnPorts_present (r : Request M R C) : (w.present r).instrOnPorts r = r.instr := by
  cases r <;> rfl

/-! ## The response with every output zero -/

@[simp] theorem zero_cwOut : (CoreResponse.zero M).cwOut = 0 := rfl
@[simp] theorem zero_dataOut : (CoreResponse.zero M).dataOut = 0 := rfl
@[simp] theorem zero_synOut : (CoreResponse.zero M).synOut = 0 := rfl
@[simp] theorem zero_errPos : (CoreResponse.zero M).errPos = 0 := rfl
@[simp] theorem zero_errFlag : (CoreResponse.zero M).errFlag = false := rfl
@[simp] theorem zero_ok : (CoreResponse.zero M).ok = false := rfl
@[simp] theorem zero_status : (CoreResponse.zero M).status = statusOk := rfl

end Sys2Proof.Machine
end

