-- ==== Sys2Proof/Laws/Bits.lean ====
section
/-! SUPPORT. Bits: one lemma per bit helper that says what it gives, bit by bit. -/

namespace Sys2Proof

theorem bitsToNat_lt (w : Nat) (f : Nat → Bool) : bitsToNat w f < 2 ^ w := by
  induction w with
  | zero => simp [bitsToNat]
  | succ w ih =>
    have h : (f w).toNat ≤ 1 := Bool.toNat_le (f w)
    have : 2 ^ w * (f w).toNat ≤ 2 ^ w * 1 := Nat.mul_le_mul_left _ h
    simp only [bitsToNat, Nat.pow_succ]
    omega

theorem testBit_bitsToNat (w : Nat) (f : Nat → Bool) (i : Nat) :
    (bitsToNat w f).testBit i = (decide (i < w) && f i) := by
  induction w with
  | zero => simp [bitsToNat]
  | succ w ih =>
    rw [bitsToNat, Nat.testBit_two_pow_mul_add _ (bitsToNat_lt w f), ih]
    by_cases h : i < w
    · simp [h, Nat.lt_succ_of_lt h]
    · by_cases e : i = w
      · subst e; cases f i <;> simp
      · have hd : 1 ≤ i - w := by omega
        have : ¬ i < w + 1 := by omega
        have hz : (f w).toNat.testBit (i - w) = false := by
          cases f w
          · simp
          · simpa using Nat.testBit_lt_two_pow (x := 1) (Nat.one_lt_two_pow (by omega))
        simp [h, this, hz]

@[simp] theorem toNat_ofBits (w : Nat) (f : Nat → Bool) : (ofBits w f).toNat = bitsToNat w f := by
  simp [ofBits, Nat.mod_eq_of_lt (bitsToNat_lt w f)]

@[simp] theorem getLsbD_ofBits (w : Nat) (f : Nat → Bool) (i : Nat) :
    (ofBits w f).getLsbD i = (decide (i < w) && f i) := by
  rw [← testBit_bitsToNat, ← toNat_ofBits]; rfl

@[simp] theorem getElem_ofBits (w : Nat) (f : Nat → Bool) {i : Nat} (hi : i < w) : (ofBits w f)[i] = f i := by
  rw [← BitVec.getLsbD_eq_getElem, getLsbD_ofBits]; simp [hi]

/-- A bus is fixed by its bits. -/
theorem eq_ofBits {w : Nat} (b : BitVec w) : b = ofBits w b.getLsbD := by
  apply BitVec.eq_of_getLsbD_eq
  intro i hi
  simp [hi]

/-- The unsigned value of a bus is the number with the bus's bits. -/
theorem toNat_eq_bitsToNat {w : Nat} (b : BitVec w) : b.toNat = bitsToNat w b.getLsbD := by
  rw [← toNat_ofBits, ← eq_ofBits]

theorem bitsToNat_congr {w : Nat} {f g : Nat → Bool} (h : ∀ i < w, f i = g i) : bitsToNat w f = bitsToNat w g := by
  apply Nat.eq_of_testBit_eq
  intro i
  by_cases hi : i < w <;> simp [testBit_bitsToNat, hi, h]

theorem ofBits_congr {w : Nat} {f g : Nat → Bool} (h : ∀ i < w, f i = g i) : ofBits w f = ofBits w g := by
  simp [ofBits, bitsToNat_congr h]

/-! ## Written strings (20_memory.md R32) -/

@[simp] theorem ofBool_beq_one (b : Bool) : (Symbol.ofBool b == Symbol.one) = b := by cases b <;> rfl

@[simp] theorem ofBool_beq_zero (b : Bool) : (Symbol.ofBool b == Symbol.zero) = !b := by cases b <;> rfl

@[simp] theorem ofBool_isBit (b : Bool) : (Symbol.ofBool b).isBit = true := by cases b <;> rfl

@[simp] theorem ofBool_ne_other (b : Bool) : (Symbol.ofBool b != Symbol.other) = true := by cases b <;> rfl

@[simp] theorem written_length {w : Nat} (b : BitVec w) : (written b).length = w := by simp [written]

/-- Character `t` of a written bus is bus bit `w - 1 - t`. -/
theorem written_getElem? {w : Nat} (b : BitVec w) {t : Nat} (ht : t < w) :
    (written b)[t]? = some (.ofBool (b.getLsbD (w - 1 - t))) := by
  simp [written, ht]

/-- Writing a bus and reading it back gives the bus. -/
@[simp] theorem busOf_written {w : Nat} (b : BitVec w) : busOf w (written b) = b := by
  apply BitVec.eq_of_getLsbD_eq
  intro i hi
  have h1 : w - 1 - i < w := by omega
  have h2 : w - 1 - (w - 1 - i) = i := by omega
  rw [busOf, getLsbD_ofBits, written_getElem? b h1, h2]
  simp [hi]

@[simp] theorem written_isBitString {w : Nat} (b : BitVec w) : isBitString w (written b) = true := by
  simp [isBitString, written]

/-- A written bit string of the right length is the writing of its bus. -/
theorem written_busOf {w : Nat} {x : List Symbol} (h : isBitString w x = true) : written (busOf w x) = x := by
  simp only [isBitString, Bool.and_eq_true, beq_iff_eq, List.all_eq_true] at h
  obtain ⟨hlen, hbit⟩ := h
  apply List.ext_getElem
  · simp [hlen]
  · intro t h1 h2
    have ht : t < w := by simpa using h1
    have h3 : w - 1 - (w - 1 - t) = t := by omega
    have hb := hbit x[t] (List.getElem_mem h2)
    simp only [written, busOf, List.getElem_map, List.getElem_range, getLsbD_ofBits, h3]
    have h4 : w - 1 - t < w := by omega
    simp only [h4, decide_true, Bool.true_and, List.getElem?_eq_getElem h2]
    revert hb
    cases x[t] <;> simp [Symbol.isBit] <;> rfl

theorem written_injective {w : Nat} {a b : BitVec w} (h : written a = written b) : a = b := by
  rw [← busOf_written a, h, busOf_written]

end Sys2Proof

namespace Sys2Proof.Machine

/-! ## XOR over a set -/

@[simp] theorem xorOver_nil (e : Nat → Bool) : xorOver [] e = false := rfl

@[simp] theorem xorOver_cons (j : Nat) (S : List Nat) (e : Nat → Bool) :
    xorOver (j :: S) e = (e j ^^ xorOver S e) := rfl

theorem xorOver_append (S T : List Nat) (e : Nat → Bool) : xorOver (S ++ T) e = (xorOver S e ^^ xorOver T e) := by
  induction S with
  | nil => simp
  | cons j S ih => simp [ih]

theorem xorOver_congr {S : List Nat} {e f : Nat → Bool} (h : ∀ j ∈ S, e j = f j) : xorOver S e = xorOver S f := by
  induction S with
  | nil => rfl
  | cons j S ih => simp_all

theorem xorOver_xor (S : List Nat) (e f : Nat → Bool) :
    xorOver S (fun j => e j ^^ f j) = (xorOver S e ^^ xorOver S f) := by
  induction S with
  | nil => rfl
  | cons j S ih => simp only [xorOver_cons, ih]; cases e j <;> cases f j <;> simp

@[simp] theorem xorOver_false (S : List Nat) : xorOver S (fun _ => false) = false := by
  induction S with
  | nil => rfl
  | cons j S ih => simpa using ih

theorem xorOver_map (S : List Nat) (g : Nat → Nat) (e : Nat → Bool) :
    xorOver (S.map g) e = xorOver S (fun j => e (g j)) := by
  induction S with
  | nil => rfl
  | cons j S ih => simp [ih]

/-- A sum over a set splits along a test. -/
theorem xorOver_split (S : List Nat) (p : Nat → Bool) (e : Nat → Bool) :
    xorOver S e = (xorOver (S.filter p) e ^^ xorOver (S.filter fun j => !p j) e) := by
  induction S with
  | nil => rfl
  | cons j S ih =>
    simp only [List.filter_cons, xorOver_cons]
    rw [ih]
    cases p j <;> simp [Bool.xor_left_comm]

/-- Filtering the set is masking the terms. -/
theorem xorOver_filter (S : List Nat) (p : Nat → Bool) (e : Nat → Bool) :
    xorOver (S.filter p) e = xorOver S fun j => p j && e j := by
  induction S with
  | nil => rfl
  | cons j S ih => cases hp : p j <;> simp [hp, ih]

/-- Only one term of a set without repeats is not zero. -/
theorem xorOver_single {S : List Nat} (hS : S.Nodup) {a : Nat} (ha : a ∈ S) {e : Nat → Bool}
    (h : ∀ j ∈ S, j ≠ a → e j = false) : xorOver S e = e a := by
  induction S with
  | nil => cases ha
  | cons j S ih =>
    rw [List.nodup_cons] at hS
    rcases List.mem_cons.mp ha with rfl | ha
    · have : xorOver S e = xorOver S fun _ => false :=
        xorOver_congr fun k hk => h k (List.mem_cons_of_mem _ hk) fun he => hS.1 (he ▸ hk)
      simp [this]
    · have hj : e j = false := h j List.mem_cons_self fun he => hS.1 (he ▸ ha)
      simp [hj, ih hS.2 ha fun k hk => h k (List.mem_cons_of_mem _ hk)]

/-- The order of the terms does not matter. -/
theorem xorOver_perm {S T : List Nat} (h : S.Perm T) (e : Nat → Bool) : xorOver S e = xorOver T e := by
  induction h with
  | nil => rfl
  | cons j _ ih => simp [ih]
  | swap i j S => simp [Bool.xor_left_comm]
  | trans _ _ ih1 ih2 => exact ih1.trans ih2

/-- Summing all ones counts the terms modulo two. -/
theorem xorOver_true (S : List Nat) : xorOver S (fun _ => true) = decide (S.length % 2 = 1) := by
  induction S with
  | nil => rfl
  | cons j S ih =>
    simp only [xorOver_cons, ih, List.length_cons, Bool.true_xor]
    rcases Nat.mod_two_eq_zero_or_one S.length with h | h <;> simp [Nat.add_mod, h]

/-- The value of a set of positions under XOR, bit by bit. -/
theorem testBit_foldr_xor (S : List Nat) (i : Nat) :
    (S.foldr (· ^^^ ·) 0).testBit i = xorOver S fun j => j.testBit i := by
  induction S with
  | nil => simp
  | cons j S ih => simp [Nat.testBit_xor, ih]

/-! ## Assignments -/

/-- One assigned bit, all others as before. -/
theorem getLsbD_setBit {w : Nat} (b : BitVec w) (i : Nat) (v : Bool) (k : Nat) :
    (setBit b i v).getLsbD k = if k = i ∧ k < w then v else b.getLsbD k := by
  by_cases hk : k < w
  · by_cases he : k = i
    · subst he; cases v <;> simp [setBit, hk, BitVec.getElem_twoPow]
    · cases v <;> simp [setBit, hk, he, BitVec.getElem_twoPow]
  · simp [hk, BitVec.getLsbD_of_ge _ _ (Nat.le_of_not_lt hk)]

@[simp] theorem assignAll_nil {w : Nat} (b : BitVec w) : assignAll b [] = b := rfl

@[simp] theorem assignAll_cons {w : Nat} (b : BitVec w) (a : Nat × Bool) (l : List (Nat × Bool)) :
    assignAll b (a :: l) = assignAll (setBit b a.1 a.2) l := rfl

theorem assignAll_append {w : Nat} (b : BitVec w) (l m : List (Nat × Bool)) :
    assignAll b (l ++ m) = assignAll (assignAll b l) m := by
  simp [assignAll, List.foldl_append]

/-- A bit no assignment names stays. -/
theorem getLsbD_assignAll_of_notMem {w : Nat} (b : BitVec w) (l : List (Nat × Bool)) {k : Nat}
    (h : k ∉ l.map Prod.fst) : (assignAll b l).getLsbD k = b.getLsbD k := by
  induction l generalizing b with
  | nil => rfl
  | cons a l ih =>
    simp only [List.map_cons, List.mem_cons, not_or] at h
    rw [assignAll_cons, ih _ h.2, getLsbD_setBit, if_neg fun c => h.1 c.1]

/-- A bit named once gets its value. -/
theorem getLsbD_assignAll_of_mem {w : Nat} (b : BitVec w) {l : List (Nat × Bool)} (hl : (l.map Prod.fst).Nodup)
    {k : Nat} {v : Bool} (hk : k < w) (h : (k, v) ∈ l) : (assignAll b l).getLsbD k = v := by
  induction l generalizing b with
  | nil => cases h
  | cons a l ih =>
    simp only [List.map_cons, List.nodup_cons] at hl
    rcases List.mem_cons.mp h with rfl | h
    · rw [assignAll_cons, getLsbD_assignAll_of_notMem _ _ hl.1, getLsbD_setBit, if_pos ⟨rfl, hk⟩]
    · exact ih _ hl.2 h

end Sys2Proof.Machine
end

