-- ==== Sys2Proof/Laws/Decode.lean ====
section
/-! SUPPORT. Decode: operation codes and packed requests (30_encoding.md R40, R41, R47). -/

namespace Sys2Proof

@[simp] theorem Op.ofBits_code (o : Op) : Op.ofBits o.code = o := by cases o <;> rfl

@[simp] theorem Op.code_ofBits (b : BitVec 3) : (Op.ofBits b).code = b := by
  revert b; decide

/-- Packing a request and taking its fields gives the request. -/
@[simp] theorem CoreRequest.unpack_pack {M : Nat} (r : CoreRequest M) : CoreRequest.unpack r.pack = r := by
  obtain ⟨op, d, c, m⟩ := r
  simp only [CoreRequest.unpack, CoreRequest.pack, CoreRequest.mk.injEq]
  refine ⟨?_, ?_, ?_, ?_⟩ <;>
    · apply BitVec.eq_of_getLsbD_eq
      intro i hi
      simp only [BitVec.getLsbD_extractLsb', BitVec.getLsbD_append, hi, decide_true, Bool.true_and]
      repeat' split
      all_goals first
        | omega
        | (congr 1; omega)

/-- Taking the fields of a packed number and packing them gives the number. -/
@[simp] theorem CoreRequest.pack_unpack {M : Nat} (w : BitVec (requestLen M)) : (CoreRequest.unpack w).pack = w := by
  apply BitVec.eq_of_getLsbD_eq
  intro i hi
  simp only [requestLen] at hi
  simp only [CoreRequest.unpack, CoreRequest.pack, BitVec.getLsbD_append, BitVec.getLsbD_extractLsb']
  repeat' split
  all_goals
    rw [decide_eq_true (by omega), Bool.true_and]
    congr 1
    omega

@[simp] theorem extract_packLocator_cw {M : Nat} (c : BitVec (codewordLen M)) (v : BitVec M) :
    (packLocator c v).extractLsb' 0 (codewordLen M) = c := by
  apply BitVec.eq_of_getLsbD_eq
  intro i hi
  simp only [packLocator, BitVec.getLsbD_extractLsb', BitVec.getLsbD_append, hi, decide_true, Bool.true_and,
    Nat.zero_add, if_true]

@[simp] theorem extract_packLocator_syn {M : Nat} (c : BitVec (codewordLen M)) (v : BitVec M) :
    (packLocator c v).extractLsb' (codewordLen M) M = v := by
  apply BitVec.eq_of_getLsbD_eq
  intro i hi
  have h : ¬ codewordLen M + i < codewordLen M := by omega
  simp only [packLocator, BitVec.getLsbD_extractLsb', BitVec.getLsbD_append, hi, decide_true, Bool.true_and,
    h, if_false, Nat.add_sub_cancel_left]

/-- The two packed forms have different widths. -/
theorem locatorRequestLen_lt_requestLen {M : Nat} (h : 2 ≤ M) : locatorRequestLen M < requestLen M := by
  have : 2 * codewordLen M ≤ M * codewordLen M := Nat.mul_le_mul_right _ h
  have := (Nat.lt_two_pow_self (n := M))
  unfold locatorRequestLen requestLen codewordLen at *
  omega

end Sys2Proof
end

