-- ==== Sys2Proof/Laws/Positions.lean ====
section
/-! SUPPORT. Positions: the parity positions, the data positions and `dpos` (10_state.md R15). -/

namespace Sys2Proof

/-! ## Lengths (00_scope.md R5) -/

theorem codewordLen_add_one (M : Nat) : codewordLen M + 1 = 2 ^ M := by
  have := Nat.one_le_two_pow (n := M)
  unfold codewordLen; omega

theorem le_codewordLen (M : Nat) : M ≤ codewordLen M := by
  have := Nat.lt_two_pow_self (n := M)
  have := codewordLen_add_one M
  omega

theorem dataLen_add (M : Nat) : dataLen M + M = codewordLen M := by
  have := le_codewordLen M
  unfold dataLen; omega

theorem two_pow_le_codewordLen {M p : Nat} (h : p < M) : 2 ^ p ≤ codewordLen M := by
  have h1 := Nat.pow_lt_pow_right (a := 2) (by omega) h
  have := codewordLen_add_one M
  omega

theorem codewordLen_succ (M : Nat) : codewordLen (M + 1) = codewordLen M + 2 ^ M := by
  have h1 := codewordLen_add_one M
  have h2 := codewordLen_add_one (M + 1)
  rw [Nat.pow_succ] at h2
  omega

/-- `0 < K` for every instance (00_scope.md R5). -/
theorem dataLen_pos {M : Nat} (h : 2 ≤ M) : 0 < dataLen M := by
  have h1 := dataLen_add M
  have h2 : M < codewordLen M := by
    obtain ⟨k, rfl⟩ := Nat.exists_eq_add_of_le h
    have h3 := codewordLen_succ (1 + k)
    have h4 := le_codewordLen (1 + k)
    have h5 : 2 ≤ 2 ^ (1 + k) := by
      rw [Nat.pow_add]; have := Nat.one_le_two_pow (n := k); omega
    rw [show 2 + k = 1 + k + 1 by omega]
    omega
  omega

end Sys2Proof

namespace Sys2Proof.Machine

/-! ## Powers of two -/

theorem isPow2_iff (j : Nat) : isPow2 j = true ↔ ∃ p, j = 2 ^ p := by
  constructor
  · intro h; exact ⟨j.log2, by simpa [isPow2] using h⟩
  · rintro ⟨p, rfl⟩; simp [isPow2, Nat.log2_two_pow]

@[simp] theorem isPow2_two_pow (p : Nat) : isPow2 (2 ^ p) = true := (isPow2_iff _).mpr ⟨p, rfl⟩

theorem isPow2_false_of_between {j p : Nat} (h1 : 2 ^ p < j) (h2 : j < 2 ^ (p + 1)) : isPow2 j = false := by
  rw [Bool.eq_false_iff, ne_eq, isPow2_iff]
  rintro ⟨q, rfl⟩
  have h3 := (Nat.pow_lt_pow_iff_right (a := 2) (by omega)).mp h1
  have h4 := (Nat.pow_lt_pow_iff_right (a := 2) (by omega)).mp h2
  omega

/-! ## Positions -/

@[simp] theorem mem_positions {M j : Nat} : j ∈ positions M ↔ 1 ≤ j ∧ j ≤ codewordLen M := by
  simp only [positions, List.mem_range'_1]
  omega

theorem positions_sorted (M : Nat) : (positions M).Pairwise (· < ·) := List.pairwise_lt_range'

theorem positions_nodup (M : Nat) : (positions M).Nodup := List.nodup_range'

@[simp] theorem positions_length (M : Nat) : (positions M).length = codewordLen M := by simp [positions]

theorem positions_succ (M : Nat) : positions (M + 1) = positions M ++ List.range' (2 ^ M) (2 ^ M) := by
  rw [positions, codewordLen_succ, ← codewordLen_add_one M, Nat.add_comm (codewordLen M) 1, positions,
    List.range'_append_1]

/-- The powers of two among the positions are `2^0, ..., 2^(M-1)` (R15). -/
theorem filter_isPow2_positions (M : Nat) : (positions M).filter isPow2 = (List.range M).map (2 ^ ·) := by
  induction M with
  | zero => rfl
  | succ M ih =>
    rw [positions_succ, List.filter_append, ih, List.range_succ, List.map_append]
    congr 1
    obtain ⟨n, hn⟩ : ∃ n, 2 ^ M = n + 1 := ⟨2 ^ M - 1, by have := Nat.one_le_two_pow (n := M); omega⟩
    have hrest : (List.range' (2 ^ M + 1) n).filter isPow2 = [] := by
      rw [List.filter_eq_nil_iff]
      intro j hj
      rw [List.mem_range'_1] at hj
      simp [isPow2_false_of_between (p := M) (j := j) (by omega) (by rw [Nat.pow_succ]; omega)]
    have hcons : List.range' (2 ^ M) (2 ^ M) = 2 ^ M :: List.range' (2 ^ M + 1) n := by
      conv_lhs => rw [show List.range' (2 ^ M) (2 ^ M) = List.range' (2 ^ M) (n + 1) by rw [← hn]]
      rw [List.range'_succ]
    rw [hcons, List.filter_cons]
    simp [hrest]

theorem positions_eq_map_range (M : Nat) : positions M = (List.range (codewordLen M)).map (· + 1) := by
  rw [positions]
  apply List.ext_getElem <;> simp [Nat.add_comm]

/-- Exactly `floor(log2 j) + 1` powers of two are at or below `j` (R15). -/
theorem length_filter_isPow2_range' (n : Nat) :
    ((List.range' 1 (n + 1)).filter isPow2).length = (n + 1).log2 + 1 := by
  induction n with
  | zero => decide
  | succ n ih =>
    rw [List.range'_concat, List.filter_append, List.length_append, ih]
    simp only [Nat.one_mul]
    by_cases h : isPow2 (1 + (n + 1)) = true
    · obtain ⟨p, hp⟩ := (isPow2_iff _).mp h
      have h1 : n + 1 + 1 = 2 ^ p := by omega
      have hp0 : p ≠ 0 := by rintro rfl; simp at h1
      obtain ⟨q, rfl⟩ := Nat.exists_eq_succ_of_ne_zero hp0
      have h2 : (n + 1).log2 = q := by
        rw [Nat.log2_eq_iff (by omega)]
        have := Nat.one_le_two_pow (n := q)
        rw [Nat.pow_succ] at *; omega
      rw [List.filter_cons_of_pos h, h1, Nat.log2_two_pow, h2]; rfl
    · have h1 : (n + 1 + 1).log2 = (n + 1).log2 := by
        rw [Nat.log2_eq_iff (by omega)]
        have h2 := Nat.log2_self_le (n := n + 1) (by omega)
        have h3 := Nat.lt_log2_self (n := n + 1)
        refine ⟨by omega, ?_⟩
        by_contra hc
        exact h ((isPow2_iff _).mpr ⟨(n + 1).log2 + 1, by omega⟩)
      rw [List.filter_cons_of_neg h, h1]; rfl

/-- Every row of `H` has `2^(M-1)` ones (42_hamming_syndrome_calc.md R67 (e)). -/
theorem length_filter_testBit_positions (M : Nat) :
    ∀ p < M, ((positions M).filter fun j => j.testBit p).length = 2 ^ (M - 1) := by
  induction M with
  | zero => intro p hp; omega
  | succ M ih =>
    intro p hp
    rw [positions_succ, List.filter_append, List.length_append]
    rcases Nat.lt_or_eq_of_le (Nat.lt_succ_iff.mp hp) with h | rfl
    · have hshift : ((List.range' (2 ^ M) (2 ^ M)).filter fun j => j.testBit p) =
          ((List.range (2 ^ M)).filter fun j => j.testBit p).map (· + 2 ^ M) := by
        have hr : List.range' (2 ^ M) (2 ^ M) = (List.range (2 ^ M)).map (· + 2 ^ M) := by
          apply List.ext_getElem <;> simp [Nat.add_comm]
        rw [hr, List.filter_map]
        congr 1
        apply List.filter_congr
        intro j _
        simp only [Function.comp, Nat.add_comm j, Nat.testBit_two_pow_add_gt h]
      have hzero : List.range (2 ^ M) = 0 :: positions M := by
        rw [List.range_eq_range', ← codewordLen_add_one, List.range'_succ]; rfl
      rw [hshift, List.length_map, hzero, List.filter_cons_of_neg (by simp), ih p h]
      obtain ⟨k, rfl⟩ := Nat.exists_eq_succ_of_ne_zero (show M ≠ 0 by omega)
      simp only [Nat.succ_eq_add_one, Nat.add_sub_cancel, Nat.pow_succ]; omega
    · have hlow : ((positions p).filter fun j => j.testBit p) = [] := by
        rw [List.filter_eq_nil_iff]
        intro j hj
        rw [mem_positions] at hj
        have := codewordLen_add_one p
        simp [Nat.testBit_lt_two_pow (show j < 2 ^ p by omega)]
      have hhigh : ((List.range' (2 ^ p) (2 ^ p)).filter fun j => j.testBit p) = List.range' (2 ^ p) (2 ^ p) := by
        rw [List.filter_eq_self]
        intro j hj
        rw [List.mem_range'_1] at hj
        rw [Nat.testBit_eq_decide_div_mod_eq]
        have : j / 2 ^ p = 1 := by
          apply Nat.div_eq_of_lt_le <;> omega
        simp [this]
      rw [hlow, hhigh]; simp

/-! ## Data positions -/

theorem mem_dataPositions {M j : Nat} : j ∈ dataPositions M ↔ (1 ≤ j ∧ j ≤ codewordLen M) ∧ isPow2 j = false := by
  simp [dataPositions]

theorem dataPositions_sorted (M : Nat) : (dataPositions M).Pairwise (· < ·) := (positions_sorted M).filter _

theorem dataPositions_nodup (M : Nat) : (dataPositions M).Nodup := (positions_nodup M).filter _

/-- There are `K` data positions. -/
@[simp] theorem dataPositions_length (M : Nat) : (dataPositions M).length = dataLen M := by
  have h := List.length_eq_length_filter_add (l := positions M) isPow2
  rw [filter_isPow2_positions, positions_length, List.length_map, List.length_range] at h
  rw [dataPositions, dataLen, h]
  omega

theorem dpos_eq_getElem {M r : Nat} (h : r < dataLen M) :
    dpos M r = (dataPositions M)[r]'(by simpa using h) := by
  simp [dpos, h]

/-- `dpos` lists the data positions. -/
theorem map_dpos_range (M : Nat) : (List.range (dataLen M)).map (dpos M) = dataPositions M := by
  apply List.ext_getElem
  · simp
  · intro r h1 h2
    have : r < dataLen M := by simpa using h1
    simp [dpos_eq_getElem this]

theorem dpos_mem {M r : Nat} (h : r < dataLen M) : dpos M r ∈ dataPositions M := by
  rw [dpos_eq_getElem h]; exact List.getElem_mem _

theorem one_le_dpos {M r : Nat} (h : r < dataLen M) : 1 ≤ dpos M r := (mem_dataPositions.mp (dpos_mem h)).1.1

theorem dpos_le {M r : Nat} (h : r < dataLen M) : dpos M r ≤ codewordLen M := (mem_dataPositions.mp (dpos_mem h)).1.2

theorem dpos_not_pow2 {M r : Nat} (h : r < dataLen M) : isPow2 (dpos M r) = false := (mem_dataPositions.mp (dpos_mem h)).2

theorem dpos_lt_dpos {M q r : Nat} (h : q < r) (hr : r < dataLen M) : dpos M q < dpos M r := by
  rw [dpos_eq_getElem hr, dpos_eq_getElem (h.trans hr)]
  exact List.pairwise_iff_getElem.mp (dataPositions_sorted M) q r _ _ h

theorem dpos_injective {M q r : Nat} (hq : q < dataLen M) (hr : r < dataLen M) (h : dpos M q = dpos M r) : q = r := by
  rcases Nat.lt_trichotomy q r with c | c | c
  · have := dpos_lt_dpos c hr; omega
  · exact c
  · have := dpos_lt_dpos c hq; omega

/-- Every data position is some `dpos(r)`. -/
theorem exists_dpos {M j : Nat} (h : j ∈ dataPositions M) : ∃ r < dataLen M, dpos M r = j := by
  rw [← map_dpos_range, List.mem_map] at h
  obtain ⟨r, hr, he⟩ := h
  exact ⟨r, List.mem_range.mp hr, he⟩

/-- Every position is a parity position `2^p` with `p < M` or a data position `dpos(r)` (R15). -/
theorem position_cases {M j : Nat} (h1 : 1 ≤ j) (h2 : j ≤ codewordLen M) :
    (∃ p < M, j = 2 ^ p) ∨ ∃ r < dataLen M, j = dpos M r := by
  cases hj : isPow2 j
  · obtain ⟨r, hr, he⟩ := exists_dpos (mem_dataPositions.mpr ⟨⟨h1, h2⟩, hj⟩)
    exact .inr ⟨r, hr, he.symm⟩
  · have hm : j ∈ (positions M).filter isPow2 := by simp [h1, h2, hj]
    rw [filter_isPow2_positions, List.mem_map] at hm
    obtain ⟨p, hp, he⟩ := hm
    exact .inl ⟨p, List.mem_range.mp hp, he.symm⟩

theorem two_pow_ne_dpos {M p r : Nat} (hr : r < dataLen M) : 2 ^ p ≠ dpos M r := by
  intro h
  have := dpos_not_pow2 hr
  rw [← h] at this
  simp at this

/-- A sum over the positions is the sum over the parity positions and the sum over the data positions. -/
theorem xorOver_positions (M : Nat) (e : Nat → Bool) :
    xorOver (positions M) e =
      (xorOver (List.range M) (fun p => e (2 ^ p)) ^^ xorOver (List.range (dataLen M)) fun r => e (dpos M r)) := by
  rw [xorOver_split _ isPow2, filter_isPow2_positions, xorOver_map, ← xorOver_map _ (dpos M) e, map_dpos_range]
  rfl

end Sys2Proof.Machine
end

