-- ==== Sys2Proof/Laws/Units.lean ====
section
/-! SUPPORT. Units: what each unit's output buses hold, bit by bit. -/

namespace Sys2Proof.Machine

/-! ## Encoder (40_hamming_encoder.md R51, R53) -/

theorem map_fst_placeData (M : Nat) (d : BitVec (dataLen M)) :
    (placeData M d).map Prod.fst = (dataPositions M).map (· - 1) := by
  rw [← map_dpos_range]
  simp [placeData]

/-- No bit of the codeword is assigned twice (R51). -/
theorem assigned_nodup (M : Nat) (d : BitVec (dataLen M)) (par : Nat → Bool) :
    ((placeData M d ++ (List.range M).map fun p => (2 ^ p - 1, par p)).map Prod.fst).Nodup := by
  rw [List.map_append, map_fst_placeData, List.map_map]
  have hpar : (List.range M).map (Prod.fst ∘ fun p => (2 ^ p - 1, par p)) =
      ((positions M).filter isPow2).map (· - 1) := by
    rw [filter_isPow2_positions, List.map_map]; rfl
  rw [hpar, ← List.map_append]
  refine List.Nodup.map_on ?_ ?_
  · intro a ha b hb hab
    have h1 : ∀ x ∈ dataPositions M ++ (positions M).filter isPow2, 1 ≤ x := by
      intro x hx
      rcases List.mem_append.mp hx with h | h
      · exact (mem_dataPositions.mp h).1.1
      · exact (mem_positions.mp (List.mem_filter.mp h).1).1
    have := h1 a ha
    have := h1 b hb
    omega
  · rw [List.nodup_append]
    refine ⟨dataPositions_nodup M, (positions_nodup M).filter _, ?_⟩
    intro a ha b hb hab
    subst hab
    have h1 := (mem_dataPositions.mp ha).2
    have h2 := (List.mem_filter.mp hb).2
    rw [h1] at h2
    exact Bool.noConfusion h2

/-- The shape `POS` and `ENC` share: data bits at the data positions, a slot value at every parity position. -/
theorem getLsbD_placed_data {M r : Nat} (d : BitVec (dataLen M)) (par : Nat → Bool) (hr : r < dataLen M) :
    (assignAll (0 : BitVec (codewordLen M))
      (placeData M d ++ (List.range M).map fun p => (2 ^ p - 1, par p))).getLsbD (dpos M r - 1) = d.getLsbD r := by
  have h1 := one_le_dpos hr
  have h2 := dpos_le hr
  refine getLsbD_assignAll_of_mem _ (assigned_nodup M d par) (by omega) ?_
  exact List.mem_append_left _ (List.mem_map.mpr ⟨r, List.mem_range.mpr hr, rfl⟩)

theorem getLsbD_placed_parity {M p : Nat} (d : BitVec (dataLen M)) (par : Nat → Bool) (hp : p < M) :
    (assignAll (0 : BitVec (codewordLen M))
      (placeData M d ++ (List.range M).map fun q => (2 ^ q - 1, par q))).getLsbD (2 ^ p - 1) = par p := by
  have h1 := Nat.one_le_two_pow (n := p)
  have h2 := two_pow_le_codewordLen hp
  refine getLsbD_assignAll_of_mem _ (assigned_nodup M d par) (by omega) ?_
  exact List.mem_append_right _ (List.mem_map.mpr ⟨p, List.mem_range.mpr hp, rfl⟩)

theorem positionedBits_data {M r : Nat} (d : BitVec (dataLen M)) (hr : r < dataLen M) :
    (positionedBits M d).getLsbD (dpos M r - 1) = d.getLsbD r := getLsbD_placed_data d _ hr

theorem positionedBits_parity {M p : Nat} (d : BitVec (dataLen M)) (hp : p < M) :
    (positionedBits M d).getLsbD (2 ^ p - 1) = false := getLsbD_placed_parity d (fun _ => false) hp

theorem codeword_data {M r : Nat} (d : BitVec (dataLen M)) (hr : r < dataLen M) :
    (codeword M d).getLsbD (dpos M r - 1) = d.getLsbD r := getLsbD_placed_data d _ hr

theorem codeword_parity {M p : Nat} (d : BitVec (dataLen M)) (hp : p < M) :
    (codeword M d).getLsbD (2 ^ p - 1) = parityBit M d p := getLsbD_placed_parity d _ hp

/-- Two words of `N` bits that agree at the parity and at the data positions are equal. -/
theorem eq_of_positions {M : Nat} {a b : BitVec (codewordLen M)}
    (hp : ∀ p < M, a.getLsbD (2 ^ p - 1) = b.getLsbD (2 ^ p - 1))
    (hd : ∀ r < dataLen M, a.getLsbD (dpos M r - 1) = b.getLsbD (dpos M r - 1)) : a = b := by
  apply BitVec.eq_of_getLsbD_eq
  intro i hi
  rcases position_cases (M := M) (j := i + 1) (by omega) (by omega) with ⟨p, h, e⟩ | ⟨r, h, e⟩
  · have := hp p h
    rwa [← e, Nat.add_sub_cancel] at this
  · have := hd r h
    rwa [← e, Nat.add_sub_cancel] at this

/-! ## Matrix unit (41_gf2_matrix_mult_unit.md R61) -/

theorem getLsbD_matrixVector {R C : Nat} (mat : BitVec (R * C)) (vec : BitVec C) {i : Nat} (hi : i < R) :
    (matrixVector R C mat vec).getLsbD i =
      xorOver (List.range C) fun j => mat.getLsbD (i * C + j) && vec.getLsbD j := by
  rw [matrixVector, getLsbD_ofBits]; simp [hi]

/-- The packed constant `H` (R63). -/
theorem getLsbD_checkMatrixBus {M i c : Nat} (hi : i < M) (hc : c < codewordLen M) :
    (checkMatrixBus M).getLsbD (i * codewordLen M + c) = (c + 1).testBit i := by
  have h0 : 0 < codewordLen M := by omega
  have h1 : i * codewordLen M + c < M * codewordLen M := by
    calc i * codewordLen M + c < i * codewordLen M + codewordLen M := by omega
      _ = (i + 1) * codewordLen M := by rw [Nat.succ_mul]
      _ ≤ M * codewordLen M := Nat.mul_le_mul_right _ hi
  have h2 : (i * codewordLen M + c) / codewordLen M = i := by
    rw [Nat.add_comm, Nat.add_mul_div_right _ _ h0, Nat.div_eq_of_lt hc, Nat.zero_add]
  have h3 : (i * codewordLen M + c) % codewordLen M = c := by
    rw [Nat.add_comm, Nat.add_mul_mod_self_right, Nat.mod_eq_of_lt hc]
  rw [checkMatrixBus, getLsbD_ofBits, h2, h3]
  simp [h1, checkMatrix]

/-! ## Syndrome unit (42_hamming_syndrome_calc.md R66) -/

theorem getLsbD_syndromeOf {M i : Nat} (cw : BitVec (codewordLen M)) (hi : i < M) :
    (syndromeOf M cw).getLsbD i =
      xorOver ((positions M).filter fun j => j.testBit i) fun j => cw.getLsbD (j - 1) := by
  rw [syndromeOf, getLsbD_ofBits]; simp [hi]

/-- Syndrome bit `i` sums the slot of parity bit `i` and the data bits that parity bit `i` covers (R66, R54). -/
theorem getLsbD_syndromeOf_split {M i : Nat} (cw : BitVec (codewordLen M)) (hi : i < M) :
    (syndromeOf M cw).getLsbD i = (cw.getLsbD (2 ^ i - 1) ^^
      xorOver ((List.range (dataLen M)).filter fun r => (dpos M r).testBit i) fun r => cw.getLsbD (dpos M r - 1)) := by
  rw [getLsbD_syndromeOf _ hi, xorOver_filter, xorOver_positions, xorOver_filter]
  congr 1
  rw [xorOver_single List.nodup_range (List.mem_range.mpr hi)]
  · simp
  · intro p _ hp
    simp [hp]

/-! ## Locator (43_hamming_error_locator.md R71, R72, R74) -/

theorem getLsbD_extractedData {M r : Nat} (cw : BitVec (codewordLen M)) (hr : r < dataLen M) :
    (extractedData M cw).getLsbD r = cw.getLsbD (dpos M r - 1) := by
  rw [extractedData, getLsbD_ofBits]; simp [hr]

/-- A syndrome names a position that exists (42_hamming_syndrome_calc.md R67 (d)). -/
theorem syndrome_le_codewordLen {M : Nat} (syn : BitVec M) : syn.toNat ≤ codewordLen M := by
  have h1 := syn.isLt
  have h2 := codewordLen_add_one M
  omega

/-- The bit the syndrome names is inverted, every other bit stays. -/
theorem getLsbD_flipNamed {M : Nat} (cw : BitVec (codewordLen M)) (syn : BitVec M) {k : Nat}
    (hk : k < codewordLen M) :
    (flipNamed cw syn).getLsbD k = if k + 1 = syn.toNat then !cw.getLsbD k else cw.getLsbD k := by
  unfold flipNamed
  by_cases h : syn.toNat = 0
  · simp [h]
  · rw [if_pos h, getLsbD_setBit]
    by_cases he : k + 1 = syn.toNat
    · have : k = syn.toNat - 1 := by omega
      rw [if_pos ⟨this, hk⟩, if_pos he, ← this]
    · rw [if_neg (fun c => he (by omega)), if_neg he]

@[simp] theorem flipNamed_zero {M : Nat} (cw : BitVec (codewordLen M)) : flipNamed cw (0 : BitVec M) = cw := by
  simp [flipNamed]

theorem toNat_errPos {M : Nat} (syn : BitVec M) : (errPos syn).toNat = codewordLen M - syn.toNat := by
  have h1 := codewordLen_add_one M
  rw [errPos, BitVec.toNat_ofNat, Nat.mod_eq_of_lt (by omega)]

end Sys2Proof.Machine
end

