-- ==== Sys2Proof/Laws/Exec.lean ====
section
/-! SUPPORT. Exec: what operands pass the checks, and everything one transaction can do. -/

namespace Sys2Proof.Machine

/-! ## Operands -/

theorem allBits_eq_all_isBit (x : List Symbol) : allBits x = x.all Symbol.isBit := by
  induction x with
  | nil => rfl
  | cons c x ih =>
    have : allBits (c :: x) = ((c != .other) && allBits x) := rfl
    rw [this, ih]; cases c <;> rfl

@[simp] theorem allBits_written {w : Nat} (b : BitVec w) : allBits (written b) = true := by
  rw [allBits_eq_all_isBit]; simp [written]

/-- The check answers the bus exactly for a bit string of the right length (60_exceptions.md R93, R94). -/
theorem checkedBus_of_isBitString {w : Nat} {x : List Symbol} (h : isBitString w x = true) :
    checkedBus w x = .ok (busOf w x) := by
  simp only [isBitString, Bool.and_eq_true, beq_iff_eq] at h
  simp [checkedBus, h.1, allBits_eq_all_isBit, h.2]

@[simp] theorem checkedBus_written {w : Nat} (b : BitVec w) : checkedBus w (written b) = .ok b := by
  rw [checkedBus_of_isBitString (written_isBitString b), busOf_written]

theorem checkedBus_of_length {w : Nat} {x : List Symbol} (h : x.length ≠ w) :
    checkedBus w x = .error .lengthMismatch := by
  simp [checkedBus, h]

theorem checkedBus_of_symbol {w : Nat} {x : List Symbol} (h : x.length = w) (hb : allBits x = false) :
    checkedBus w x = .error .invalidCharacter := by
  simp [checkedBus, h, hb]

@[simp] theorem checkedMatrix_written {M : Nat} (m : BitVec (M * codewordLen M)) (v : BitVec (codewordLen M)) :
    checkedMatrix M (written m) (written v) = .ok (m, v) := by
  simp [checkedMatrix]

@[simp] theorem checkedLocator_written {M : Nat} (c : BitVec (codewordLen M)) (v : BitVec M) :
    checkedLocator M (written c) (written v) = .ok (c, v) := by
  simp [checkedLocator]

theorem allBits_of_other {x : List Symbol} (h : Symbol.other ∈ x) : allBits x = false := by
  simp only [allBits, List.all_eq_false]
  exact ⟨_, h, by decide⟩

theorem checkedMatrix_of_shape {M : Nat} {mat vec : List Symbol}
    (h : mat.length ≠ M * codewordLen M ∨ vec.length ≠ codewordLen M) :
    checkedMatrix M mat vec = .error .shapeMismatch := if_pos h

theorem checkedMatrix_of_symbol {M : Nat} {mat vec : List Symbol} (hm : mat.length = M * codewordLen M)
    (hv : vec.length = codewordLen M) (hb : (allBits mat && allBits vec) = false) :
    checkedMatrix M mat vec = .error .invalidCharacter := by
  rw [checkedMatrix, if_neg (by simp [hm, hv]), hb]; rfl

theorem checkedLocator_of_length {M : Nat} {cw synIn : List Symbol}
    (h : cw.length ≠ codewordLen M ∨ synIn.length ≠ M) :
    checkedLocator M cw synIn = .error .lengthMismatch := if_pos h

theorem checkedLocator_of_symbol {M : Nat} {cw synIn : List Symbol} (hc : cw.length = codewordLen M)
    (hs : synIn.length = M) (hb : (allBits cw && allBits synIn) = false) :
    checkedLocator M cw synIn = .error .invalidCharacter := by
  rw [checkedLocator, if_neg (by simp [hc, hs]), hb]; rfl

/-! ## One transaction of `hamming_core` -/

@[simp] theorem transaction_ok {α : Type} (s : State) (a : α) (f : α → CoreResponse s.M) :
    s.transaction (.ok a) f = .next { s with wires := s.wires.respond (f a) } := rfl

@[simp] theorem transaction_error {α : Type} (s : State) (e : Fault) (f : α → CoreResponse s.M) :
    s.transaction (.error e) f = .next { s with wires := s.wires.report e.code } := rfl

/-- Whatever the operand, a transaction drives `coreOut` and nothing else. -/
theorem transaction_responds {α : Type} (s : State) (operand : Except Fault α) (f : α → CoreResponse s.M) :
    ∃ o, s.transaction operand f = .next { s with wires := s.wires.respond o } := by
  cases operand with
  | error e => exact ⟨_, rfl⟩
  | ok a => exact ⟨_, rfl⟩

/-- Everything `exec` can do: an operation of `hamming_core` drives `coreOut`; the stand-alone locator drives its own
outputs, or faults on operands its ports cannot carry. -/
theorem exec_cases (i : Instr) (s : State) :
    (∃ o, exec i s = .next { s with wires := s.wires.respond o }) ∨
    (∃ cw synIn a, i = .loc cw synIn ∧ checkedLocator s.M cw synIn = .ok a ∧
      exec i s = .next { s with wires := s.wires.respondLocator (hammingErrorLocator a.1 a.2) }) ∨
    (∃ cw synIn e, i = .loc cw synIn ∧ checkedLocator s.M cw synIn = .error e ∧ exec i s = .fault e) := by
  cases i with
  | enc _ => exact .inl (transaction_responds _ _ _)
  | syn _ => exact .inl (transaction_responds _ _ _)
  | chk _ => exact .inl (transaction_responds _ _ _)
  | dec _ => exact .inl (transaction_responds _ _ _)
  | pos _ => exact .inl (transaction_responds _ _ _)
  | ext _ => exact .inl (transaction_responds _ _ _)
  | mvm _ _ => exact .inl (transaction_responds _ _ _)
  | illegal => exact .inl ⟨_, rfl⟩
  | loc cw synIn =>
    cases h : checkedLocator s.M cw synIn with
    | ok a => exact .inr (.inl ⟨cw, synIn, a, rfl, h, by simp [exec, execLoc, h]⟩)
    | error e => exact .inr (.inr ⟨cw, synIn, e, rfl, h, by simp [exec, execLoc, h]⟩)

/-- The meaning of the instruction on the ports is the composite function of the ports (44_hamming_core.md R82). -/
theorem exec_instr {s : State} (q : CoreRequest s.M) : exec q.instr s = .next { s with wires := s.wires.respond (hammingCore q) } := by
  unfold CoreRequest.instr hammingCore
  cases Op.ofBits q.op <;>
    simp [exec, execEnc, execSyn, execChk, execDec, execPos, execExt, execMvm, execIllegal, State.formatD,
      State.formatC, State.formatMC, Wires.report, illegalResponse]

/-- The stand-alone locator answers for its own wires (30_encoding.md R47). -/
theorem exec_loc_written {s : State} (c : BitVec (codewordLen s.M)) (v : BitVec s.M) :
    exec (.loc (written c) (written v)) s = .next { s with wires := s.wires.respondLocator (hammingErrorLocator c v) } := by
  simp [exec, execLoc]

/-! ## One step -/

/-- Everything a step can do when a transaction is left: run the instruction on the wires, or let a unit without an
operation code drive its outputs. -/
theorem step_cons_cases {s : State} {r : Request s.params.M s.shape.R s.shape.C}
    {rest : List (Request s.params.M s.shape.R s.shape.C)} (h : s.pending = r :: rest) :
    (∃ i, r.instr = some i ∧ step s = exec i { s with wires := s.wires.present r, pending := rest }) ∨
    (r.instr = none ∧ step s = .next { s with wires := (s.wires.present r).settleUnit r, pending := rest }) := by
  cases hi : r.instr with
  | some i => exact .inl ⟨i, rfl, by simp only [step, h, instrOnPorts_present, hi]⟩
  | none => exact .inr ⟨rfl, by simp only [step, h, instrOnPorts_present, hi]⟩

end Sys2Proof.Machine
end

