-- ==== Sys2Proof/Laws/PerInstr.lean ====
section
/-! SUPPORT. PerInstr: what holds of every instruction as syntax. -/

namespace Sys2Proof.Laws.EncodedWidth

/-- An instruction is written on the width of its packed form: `LOC` on that of R47, every other on that of R40. -/
def Statement (i : Instr) : Prop :=
  ∀ M, (encode M i).width = match i with
    | .loc _ _ => locatorRequestLen M
    | .enc _ => requestLen M
    | .syn _ => requestLen M
    | .chk _ => requestLen M
    | .dec _ => requestLen M
    | .pos _ => requestLen M
    | .ext _ => requestLen M
    | .mvm _ _ => requestLen M
    | .illegal => requestLen M

theorem enc (data : List Symbol) : Statement (.enc data) := fun _ => rfl
theorem syn (cw : List Symbol) : Statement (.syn cw) := fun _ => rfl
theorem chk (cw : List Symbol) : Statement (.chk cw) := fun _ => rfl
theorem dec (cw : List Symbol) : Statement (.dec cw) := fun _ => rfl
theorem pos (data : List Symbol) : Statement (.pos data) := fun _ => rfl
theorem ext (cw : List Symbol) : Statement (.ext cw) := fun _ => rfl
theorem mvm (mat vec : List Symbol) : Statement (.mvm mat vec) := fun _ => rfl
theorem illegal : Statement .illegal := fun _ => rfl
theorem loc (cw synIn : List Symbol) : Statement (.loc cw synIn) := fun _ => rfl

end Sys2Proof.Laws.EncodedWidth
end

