-- ==== Sys2Proof/Tests/Slice0.lean ====
section
/-! SUPPORT. Tests: the spec's own vectors (95_test_vectors.md), one step each, and witnesses that the hypotheses of the
statements can be met. The expected results are the spec's. -/

namespace Sys2Proof.Tests

open Sys2Proof.Machine

/-! ## Helpers -/

/-- The outputs of `hamming_core` as numbers, in the order of the port list of 10_state.md R23. -/
def coreOutputs : Result → List Nat
  | .next t => [t.wires.coreOut.cwOut.toNat, t.wires.coreOut.dataOut.toNat, t.wires.coreOut.synOut.toNat,
      t.wires.coreOut.errPos.toNat, t.wires.coreOut.errFlag.toNat, t.wires.coreOut.ok.toNat,
      t.wires.coreOut.status.toNat]
  | .fault _ => []
  | .refused _ => []

/-- The outputs of the stand-alone locator as numbers. -/
def locatorOutputs : Result → List Nat
  | .next t => [t.wires.locator.cwCorr.toNat, t.wires.locator.dataOut.toNat, t.wires.locator.errPos.toNat,
      t.wires.locator.errFlag.toNat]
  | .fault _ => []
  | .refused _ => []

/-- The result of a sequence-level call, or the status code of its error. -/
def resultOrCode {α : Type} : Except Fault α → α ⊕ Nat
  | .ok a => .inl a
  | .error e => .inr e.code.toNat

def params2 : Params := ⟨2, by decide⟩
def params4 : Params := ⟨4, by decide⟩
def at2 : State := State.init params2 Shape.example23
def at3 : State := State.reset
def at4 : State := State.init params4 Shape.example23

/-- The machine `at3` with one transaction listed. -/
def at3With (r : Request 3 2 3) : State := { at3 with pending := [r] }

/-- The matrix of 41_gf2_matrix_mult_unit.md R60. -/
def matrix23 : SymbolMatrix := ⟨[symbols "101", symbols "011"], 3, by decide⟩

/-- The same with one symbol that is no bit. -/
def matrix23Bad : SymbolMatrix := ⟨[symbols "1x1", symbols "011"], 3, by decide⟩

/-! ## Decoding: words written out from 30_encoding.md R40 and R47 for `M = 3` -/

theorem test_decode_enc :
    decodeTableWord 40 0b000_000000000000000000000_0000000_1101 = some (.enc (symbols "1101")) := by decide

theorem test_decode_syn :
    decodeTableWord 40 0b001_000000000000000000000_1010110_0000 = some (.syn (symbols "1010110")) := by decide

theorem test_decode_chk :
    decodeTableWord 40 0b010_000000000000000000000_1010110_0000 = some (.chk (symbols "1010110")) := by decide

theorem test_decode_dec :
    decodeTableWord 40 0b011_000000000000000000000_1010110_0000 = some (.dec (symbols "1010110")) := by decide

theorem test_decode_pos :
    decodeTableWord 40 0b100_000000000000000000000_0000000_1011 = some (.pos (symbols "1011")) := by decide

theorem test_decode_ext :
    decodeTableWord 40 0b101_000000000000000000000_1011110_0000 = some (.ext (symbols "1011110")) := by decide

theorem test_decode_mvm :
    decodeTableWord 40 0b110_000000010000001111111_1010001_0000 =
      some (.mvm (symbols "000000010000001111111") (symbols "1010001")) := by decide

theorem test_decode_illegal :
    decodeTableWord 40 0b111_000000000000000000000_1010001_0000 = some .illegal := by decide

theorem test_decode_loc : decodeTableWord 16 0b011_1010101 = some (.loc (symbols "1010101") (symbols "011")) := by decide

/-- A row's "match" alone, the 3-bit field `op`. -/
theorem test_decode_op_field : decodeTableWord 8 0b101 = some (.ext (symbols "0000000")) := by decide

/-- Ignored fields are dropped (R42): the example of 95_test_vectors.md 2.8. -/
theorem test_decode_ignores_unread :
    decodeTableWord 40 0b000_111111111111111111111_1111111_1011 = some (.enc (symbols "1011")) := by decide

theorem test_decode_wrong_width : decode 3 ⟨36, 0⟩ = .error (.noSuchFormat 36) := by decide

theorem test_encode_p4_step2 : (encode 3 (.mvm (symbols "111100011001101010101") (symbols "1100100"))).bits.toNat =
    0x6F19AAE40 := by decide

/-! ## Well-formedness: one ill-formed term for each check -/

theorem test_wf_good : (Instr.loc (symbols "1010001") (symbols "011")).wf 3 = true := by decide
theorem test_wf_enc_length : (Instr.enc (symbols "101")).wf 3 = false := by decide
theorem test_wf_enc_symbol : (Instr.enc (symbols "10x1")).wf 3 = false := by decide
theorem test_wf_pos_length : (Instr.pos (symbols "10111")).wf 3 = false := by decide
theorem test_wf_syn_length : (Instr.syn (symbols "101010")).wf 3 = false := by decide
theorem test_wf_chk_length : (Instr.chk (symbols "10101010")).wf 3 = false := by decide
theorem test_wf_dec_symbol : (Instr.dec (symbols "10a0101")).wf 3 = false := by decide
theorem test_wf_ext_length : (Instr.ext (symbols "101")).wf 3 = false := by decide
theorem test_wf_mvm_matrix : (Instr.mvm (symbols "110101") (symbols "1010101")).wf 3 = false := by decide
theorem test_wf_mvm_vector : (Instr.mvm (symbols "111100011001101010101") (symbols "110")).wf 3 = false := by decide
theorem test_wf_loc_codeword : (Instr.loc (symbols "101") (symbols "011")).wf 3 = false := by decide
theorem test_wf_loc_syndrome : (Instr.loc (symbols "1010001") (symbols "11")).wf 3 = false := by decide

/-! ## One transaction each (95_test_vectors.md 2.1 to 2.6, 2.8, section 3) -/

/-- 2.2: this word tells the bit conventions apart. -/
theorem test_enc_convention : coreOutputs (exec (.enc (symbols "1101")) at3) =
    [0b1100110, 0, 0, 0, 0, 0, 0] := by decide

theorem test_enc_m4 : coreOutputs (exec (.enc (symbols "10110011010")) at4) =
    [0x5959, 0, 0, 0, 0, 0, 0] := by decide

theorem test_pos_m3 : coreOutputs (exec (.pos (symbols "1101")) at3) =
    [0b1100100, 0, 0, 0, 0, 0, 0] := by decide

theorem test_pos_m4 : coreOutputs (exec (.pos (symbols "10101010101")) at4) =
    [0b101010100100100, 0, 0, 0, 0, 0, 0] := by decide

/-- 2.4: position 1 is the rightmost bit. -/
theorem test_syn_position_one : coreOutputs (exec (.syn (symbols "0000001")) at3) =
    [0, 0, 0b001, 0, 0, 0, 0] := by decide

theorem test_syn_double : coreOutputs (exec (.syn (symbols "0010100")) at3) =
    [0, 0, 0b110, 0, 0, 0, 0] := by decide

theorem test_chk_codeword : coreOutputs (exec (.chk (symbols "1010010")) at3) =
    [0, 0, 0, 0, 0, 1, 0] := by decide

theorem test_chk_flipped : coreOutputs (exec (.chk (symbols "1010001")) at3) =
    [0, 0, 0, 0, 0, 0, 0] := by decide

/-- P1 step 4. -/
theorem test_dec_single : coreOutputs (exec (.dec (symbols "1010001")) at3) =
    [0b1010101, 0b1011, 0, 4, 1, 0, 0] := by decide

/-- P2 step 4: the sentinel. -/
theorem test_dec_sentinel : coreOutputs (exec (.dec (symbols "111")) at2) =
    [0b111, 1, 0, 0b11, 0, 0, 0] := by decide

theorem test_ext_ignores_parity : coreOutputs (exec (.ext (symbols "1011110")) at3) =
    [0, 0b1011, 0, 0, 0, 0, 0] := by decide

theorem test_ext_m2 : coreOutputs (exec (.ext (symbols "011")) at2) = [0, 0, 0, 0, 0, 0, 0] := by decide

theorem test_mvm_parity_row : coreOutputs (exec (.mvm (symbols "000000010000001111111") (symbols "1010001")) at3) =
    [0, 0, 0b011, 0, 0, 0, 0] := by decide

theorem test_illegal : coreOutputs (step (at3.withFetchWord 40 0x700000510)) =
    [0, 0, 0, 0, 0, 0, 5] := by decide

/-- D19: the unit flips the position it is told. -/
theorem test_loc_foreign_syndrome : locatorOutputs (exec (.loc (symbols "1010101") (symbols "011")) at3) =
    [0b1010001, 0b1010, 4, 1] := by decide

theorem test_loc_zero_syndrome : locatorOutputs (exec (.loc (symbols "1010001") (symbols "000")) at3) =
    [0b1010001, 0b1010, 7, 0] := by decide

/-- 2.8: the code of each error. -/
theorem test_enc_length_first : coreOutputs (exec (.enc (symbols "1x")) at3) =
    [0, 0, 0, 0, 0, 0, 2] := by decide

theorem test_dec_bad_symbol : coreOutputs (exec (.dec (symbols "10a0101")) at3) =
    [0, 0, 0, 0, 0, 0, 3] := by decide

/-! ## Stand-alone units and constants -/

/-- 2.3, first row. -/
theorem test_matrix_unit : (gf2MatrixMultUnit (R := 2) (C := 3) 0b110101#6 0b011#3).out = 0b11#2 := by decide

/-- 2.3: `R = 7`, `C = 4`, the transpose of `G`. -/
theorem test_matrix_unit_transposed_g : (gf2MatrixMultUnit (R := 7) (C := 4) 0xEDB8421#28 0b1101#4).out =
    0b0101101#7 := by decide

/-- 2.3: the packed constant `H`. -/
theorem test_check_matrix : (checkMatrixBus 2).toNat = 0x35 ∧ (checkMatrixBus 3).toNat = 0x1E3355 := by decide

/-- 10_state.md R16: row 1 of `G` for `M = 3`. -/
theorem test_generator_row : (List.range 7).map (generatorMatrix 3 1) =
    [false, true, false, false, true, false, true] := by decide

/-- 10_state.md R15. -/
theorem test_data_positions : dataPositions 4 = [3, 5, 6, 7, 9, 10, 11, 12, 13, 14, 15] := by decide

/-! ## Sequence level (95_test_vectors.md 2.8) -/

theorem test_encode_sequence : resultOrCode (encodeSequence 3 (symbols "1101")) = .inl (symbols "1100110") := by decide

theorem test_encode_length : resultOrCode (encodeSequence 3 (symbols "")) = .inr 2 := by decide

theorem test_decode_sequence : resultOrCode (decodeSequence 3 (symbols "1010110")) =
    .inl ⟨symbols "1010010", symbols "1010", some 4, true⟩ := by decide

theorem test_product : resultOrCode (matrixVectorProduct matrix23 (symbols "110")) =
    .inl (symbols "11") := by decide

theorem test_product_shape_first :
    resultOrCode (matrixVectorProduct matrix23 (symbols "1x")) = .inr 4 := by decide

theorem test_construct : resultOrCode (construct 1) = .inr 1 ∧ resultOrCode (construct (-3)) = .inr 1 ∧
    resultOrCode (construct 2) = .inl params2 := by decide

/-! ## Witnesses: a concrete case that meets all hypotheses of each statement that has some -/

theorem witness_DecodeOfEncodeIsIdentity : 2 ≤ 3 ∧ (Instr.enc (symbols "1011")).wf 3 = true := by decide

theorem witness_WrittenStringIsMostSignificantFirst : (symbols "1011").length = 4 ∧ Symbol.other ∉ symbols "1011" := by
  decide

theorem witness_StepRunsDecodedInstruction :
    (at3With (.core ⟨0, 0b1011#4, 0, 0⟩)).pending = [.core ⟨0, 0b1011#4, 0, 0⟩] ∧
    (Request.core ⟨0, 0b1011#4, 0, 0⟩ : Request 3 2 3).instr = some (.enc (symbols "1011")) := by decide

theorem witness_StepRunsPlacedTableWord : decodeTableWord 40 0xB = some (.enc (symbols "1011")) := by decide

theorem witness_NothingHappensWithoutTransaction : at3.pending = [] := by decide

/-- Also for `ResponseIndependentOfHistory`. -/
theorem witness_CoreTransactionIsFunctionOfRequest :
    (at3With (.core ⟨3, 0, 0b1010001#7, 0⟩)).pending = .core ⟨3, 0, 0b1010001#7, 0⟩ :: [] := by decide

/-- Also for `IgnoredInputsHaveNoEffect`: each code is some request's. -/
theorem witness_CoreOutputsForEachOp : ∀ op : BitVec 3, (⟨op, 0, 0, 0⟩ : CoreRequest 3).op = op := by decide

theorem witness_TransactionsOnDifferentUnitsCommute :
    unitOf (.core ⟨0, 0, 0, 0⟩ : Request 3 2 3) ≠ unitOf (.locator 0 0 : Request 3 2 3) := by decide

theorem witness_StandaloneUnitsDriveAllOutputs :
    (at3With (.encoder 0b1011#4)).pending = [.encoder 0b1011#4] ∧
    (at3With (.syndrome 0b1010001#7)).pending = [.syndrome 0b1010001#7] ∧
    (at3With (.matrix 0b110101#6 0b011#3)).pending = [.matrix 0b110101#6 0b011#3] := by decide

/-- Also for `StatusIsOkOrIllegalOp`. -/
theorem witness_StepKeepsOutputsSettled :
    at2.wires.Settled ∧ at2.wires.StatusReachable ∧ ∃ t, step (at2.withFetchWord 13 0xC0A) = .next t := by
  refine ⟨⟨?_, ?_, ?_, ?_, ?_⟩, .inl rfl, ⟨_, rfl⟩⟩ <;> decide

theorem witness_OperationsDriveOnlyTheirOutputs :
    (∀ cw synIn, Instr.enc (symbols "1011") ≠ .loc cw synIn) ∧
    (∃ t, exec (.enc (symbols "1011")) at3 = .next t) ∧
    (∃ t, exec (.loc (symbols "1010001") (symbols "011")) at3 = .next t) :=
  ⟨fun _ _ h => Instr.noConfusion h, ⟨_, rfl⟩, ⟨_, rfl⟩⟩

/-- Each clause, one symbol too short, one too long, none, and the right length with a symbol that is no bit. -/
theorem witness_IllFormedOperandsAreReported :
    ((symbols "101").length ≠ dataLen 3 ∧ (symbols "10111").length ≠ dataLen 3 ∧ (symbols "").length ≠ dataLen 3) ∧
    ((symbols "10x1").length = dataLen 3 ∧ Symbol.other ∈ symbols "10x1") ∧
    ((symbols "101010").length ≠ codewordLen 3 ∧ (symbols "10101010").length ≠ codewordLen 3) ∧
    ((symbols "10a0101").length = codewordLen 3 ∧ Symbol.other ∈ symbols "10a0101") ∧
    ((symbols "11110001100110101010").length ≠ 3 * codewordLen 3) ∧
    ((symbols "111100011001101010101").length = 3 * codewordLen 3 ∧ (symbols "10a0101").length = codewordLen 3 ∧
      Symbol.other ∈ symbols "10a0101") := by decide

theorem witness_LocateStopsOnIllFormedOperands :
    (symbols "01").length ≠ 3 ∧
    ((symbols "10a0101").length = codewordLen 3 ∧ (symbols "011").length = 3 ∧
      Symbol.other ∈ symbols "10a0101") := by decide

theorem witness_DataPositionsAreNonPowersOfTwo : 0 < 3 ∧ 3 < dataLen 3 := by decide

theorem witness_DataPositionClosedForm : dataLen 3 - 1 < dataLen 3 := by decide

theorem witness_EachParityBitCoversHalfOfPositions : 2 < 3 := by decide

theorem witness_MatrixUnitWithCheckMatrixIsSyndrome : 2 < 3 ∧ 6 < codewordLen 3 := by decide

/-- Also for `MatrixProductIsLinear` and `MatrixVectorDrivesProduct`: row 0 of one row. -/
theorem witness_GeneratorProductIsRearrangedCodeword :
    2 < codewordLen 2 ∧ 3 ≤ 3 ∧ 3 < dataLen 3 ∧ 2 < 3 ∧ 0 < 1 := by decide

/-- No range of bits that a result statement speaks of is empty, at the smallest `M`: also for the result statements of
`ENC`, `POS`, `SYN`, `CHK`, `EXT`, `LOC` and `DEC`. -/
theorem witness_PackedRequestBitNumbers :
    0 < dataLen 2 ∧ 0 < codewordLen 2 ∧ 0 < 2 * codewordLen 2 ∧ 0 < 2 ∧ 2 < 3 := by decide

theorem witness_EncodeProperties : 2 ≤ 2 := by decide

/-- Every clause at `M = 2` and positions 1 and `N`; also for `EveryWordIsNearExactlyOneCodeword`,
`SingleErrorsAreCorrected` and `DoubleErrorsAreMiscorrected`. -/
theorem witness_SyndromeNamesXorOfPositions :
    2 ≤ 2 ∧ syndromeOf 2 0b111#3 = 0 ∧ 1 ≤ codewordLen 2 ∧ 1 ≠ codewordLen 2 ∧ 0 < codewordLen 2 := by decide

theorem witness_CancellingErrorsPassUnseen :
    ((List.range' 1 (codewordLen 3)).filter fun j => (0b0000111#7).getLsbD (j - 1)).foldr (· ^^^ ·) 0 = 0 := by decide

theorem witness_ErrorIndexIsComplementOfSyndrome : (0b111#3 : BitVec 3) ≠ 0 ∧ (0b000#3 : BitVec 3) = 0 := by decide

theorem witness_ExtractionIgnoresParityPositions : 1 < 2 := by decide

/-- The matrix and vector of 41_gf2_matrix_mult_unit.md R60. -/
theorem witness_MatrixVectorProductAgreesWithPort :
    matrix23.cols = 3 ∧ matrix23.rows = (List.range 2).map (fun i => (List.range 3).map fun j =>
      .ofBool ((0b110101#6).getLsbD (i * 3 + j))) := by decide

theorem witness_WrongLengthIsLengthMismatch :
    (symbols "101").length ≠ dataLen 3 ∧ (symbols "1011").length ≠ codewordLen 3 := by decide

theorem witness_BadSymbolIsInvalidCharacter :
    Symbol.other ∈ symbols "10x1" ∧ (symbols "10x1").length = dataLen 3 ∧
    Symbol.other ∈ symbols "10a0101" ∧ (symbols "10a0101").length = codewordLen 3 ∧
    symbols "1x1" ∈ matrix23Bad.rows ∧ (symbols "1x0").length = matrix23Bad.cols := by decide

theorem witness_ConstructNeedsTwoParityBits : (2 : Int) ≤ 2 := by decide

end Sys2Proof.Tests
end

/-! # The sequence level agrees with the ports (00_scope.md R6) -/

namespace Sys2Proof.Machine

/-! ## Assigning every bit of a bus -/

/-- A bus whose every bit is assigned holds the assigned bits, whatever it held before. -/
theorem assignAll_range_getLsbD {w : Nat} (a b : BitVec w) :
    assignAll a ((List.range w).map fun i => (i, b.getLsbD i)) = b := by
  apply BitVec.eq_of_getLsbD_eq
  intro i hi
  refine getLsbD_assignAll_of_mem a ?_ hi (List.mem_map.mpr ⟨i, List.mem_range.mpr hi, rfl⟩)
  have hfst : ((List.range w).map fun i => (i, b.getLsbD i)).map Prod.fst = List.range w := by
    simp [Function.comp_def]
  rw [hfst]
  exact List.nodup_range

theorem assignAll_positions_getLsbD {M : Nat} (a b : BitVec (codewordLen M)) :
    assignAll a ((positions M).map fun j => (j - 1, b.getLsbD (j - 1))) = b := by
  rw [positions_eq_map_range, List.map_map]
  exact assignAll_range_getLsbD a b

/-! ## The walk of `positionBits` (40_hamming_encoder.md R50) -/

/-- A power of two reached in the walk is `2^q` for the number `q` of powers of two passed before it, and `q` names a
parity bit. -/
theorem two_pow_length_filter_isPow2 {M j : Nat} {past rest : List Nat} (h : positions M = past ++ j :: rest)
    (hj : isPow2 j = true) : (past.filter isPow2).length < M ∧ 2 ^ (past.filter isPow2).length = j := by
  have hsplit : (List.range M).map (2 ^ ·) = past.filter isPow2 ++ j :: rest.filter isPow2 := by
    rw [← filter_isPow2_positions, h, List.filter_append, List.filter_cons_of_pos hj]
  have hget := congrArg (·[(past.filter isPow2).length]?) hsplit
  simp only [List.getElem?_map, List.getElem?_append_right (Nat.le_refl _), Nat.sub_self, List.getElem?_cons_zero,
    Option.map_eq_some_iff] at hget
  obtain ⟨p, hp, hpow⟩ := hget
  obtain ⟨hlt, rfl⟩ := List.getElem?_eq_some_iff.mp hp
  exact ⟨by simpa using hlt, by simpa using hpow⟩

/-- A data position reached in the walk is `dpos` of the number of data positions passed before it, and that number
names a data bit. -/
theorem dpos_length_filter_not_isPow2 {M j : Nat} {past rest : List Nat} (h : positions M = past ++ j :: rest)
    (hj : isPow2 j = false) :
    (past.filter fun i => !isPow2 i).length < dataLen M ∧ dpos M (past.filter fun i => !isPow2 i).length = j := by
  have hsplit : dataPositions M = (past.filter fun i => !isPow2 i) ++ j :: rest.filter fun i => !isPow2 i := by
    rw [dataPositions, h, List.filter_append, List.filter_cons_of_pos (by simp [hj])]
  constructor
  · rw [← dataPositions_length, hsplit]; simp
  · simp [dpos, hsplit]

/-- From any point of the walk on, with the counters at what has been passed, every position gets its bit of `POS`. -/
theorem foldl_positionWalk {M : Nat} (d : BitVec (dataLen M)) (todo past : List Nat) (h : positions M = past ++ todo)
    (b : BitVec (codewordLen M)) :
    (todo.foldl (positionWalk d)
        (b, (past.filter isPow2).length, (past.filter fun i => !isPow2 i).length)).1 =
      assignAll b (todo.map fun j => (j - 1, (positionedBits M d).getLsbD (j - 1))) := by
  induction todo generalizing past b with
  | nil => rfl
  | cons j todo ih =>
    have hnext : positions M = (past ++ [j]) ++ todo := by simpa using h
    rw [List.foldl_cons, List.map_cons, assignAll_cons, ← ih _ hnext]
    cases hj : isPow2 j with
    | true =>
      obtain ⟨hq, hslot⟩ := two_pow_length_filter_isPow2 h hj
      have hbit := positionedBits_parity d hq
      rw [hslot] at hbit
      simp [positionWalk, hslot, hbit, hj]
    | false =>
      obtain ⟨hr, hdpos⟩ := dpos_length_filter_not_isPow2 h hj
      have hslot : j ≠ 2 ^ (past.filter isPow2).length := by
        rw [← hdpos]; exact (two_pow_ne_dpos hr).symm
      have hbit := positionedBits_data d hr
      rw [hdpos] at hbit
      simp [positionWalk, hslot, hbit, hj]

theorem positionBits_written {M : Nat} (d : BitVec (dataLen M)) :
    positionBits M (written d) = .ok (written (positionedBits M d)) := by
  have hwalk := foldl_positionWalk d (positions M) [] rfl 0
  rw [assignAll_positions_getLsbD] at hwalk
  simp only [positionBits, checkedBus_written]
  exact congrArg (fun b => Except.ok (written b)) hwalk

/-- Settles O50, by the walk lemma `foldl_positionWalk` from the first position on. -/
theorem positionBitsAgreesWithPort : Obligations.PositionBitsAgreesWithPort :=
  fun _ d => positionBits_written d

/-! ## The parity loop of `encode` (40_hamming_encoder.md R52) -/

/-- The data bits at the data positions and the bit `par p` in the slot of each parity bit `p`: the form of `POS`, of
`ENC`, and of every word between two turns of the parity loop. -/
def withParity (M : Nat) (d : BitVec (dataLen M)) (par : Nat → Bool) : BitVec (codewordLen M) :=
  assignAll 0 (placeData M d ++ (List.range M).map fun p => (2 ^ p - 1, par p))

@[simp] theorem withParity_data {M r : Nat} (d : BitVec (dataLen M)) (par : Nat → Bool) (hr : r < dataLen M) :
    (withParity M d par).getLsbD (dpos M r - 1) = d.getLsbD r := getLsbD_placed_data d par hr

@[simp] theorem withParity_parity {M p : Nat} (d : BitVec (dataLen M)) (par : Nat → Bool) (hp : p < M) :
    (withParity M d par).getLsbD (2 ^ p - 1) = par p := getLsbD_placed_parity d par hp

theorem positionedBits_eq_withParity {M : Nat} (d : BitVec (dataLen M)) :
    positionedBits M d = withParity M d fun _ => false := rfl

theorem codeword_eq_withParity {M : Nat} (d : BitVec (dataLen M)) :
    codeword M d = withParity M d (parityBit M d) := rfl

theorem withParity_congr {M : Nat} (d : BitVec (dataLen M)) {par par' : Nat → Bool} (h : ∀ p < M, par p = par' p) :
    withParity M d par = withParity M d par' :=
  eq_of_positions (fun p hp => by simp [hp, h]) (fun r hr => by simp [hr])

theorem two_pow_sub_one_ne {p q : Nat} (h : q ≠ p) : 2 ^ q - 1 ≠ 2 ^ p - 1 := by
  have hne : 2 ^ q ≠ 2 ^ p := fun he => h (Nat.pow_right_injective (Nat.le_refl 2) he)
  have := Nat.one_le_two_pow (n := p)
  have := Nat.one_le_two_pow (n := q)
  omega

theorem dpos_sub_one_ne_two_pow_sub_one {M r : Nat} (p : Nat) (hr : r < dataLen M) : dpos M r - 1 ≠ 2 ^ p - 1 := by
  have := two_pow_ne_dpos (p := p) hr
  have := one_le_dpos hr
  have := Nat.one_le_two_pow (n := p)
  omega

/-- Setting the slot of parity bit `p` changes that parity bit and nothing else. -/
theorem setBit_withParity {M p : Nat} (d : BitVec (dataLen M)) (par : Nat → Bool) (v : Bool) (hp : p < M) :
    setBit (withParity M d par) (2 ^ p - 1) v = withParity M d (Function.update par p v) := by
  have hlt : 2 ^ p - 1 < codewordLen M := by
    have := Nat.one_le_two_pow (n := p)
    have := two_pow_le_codewordLen hp
    omega
  apply eq_of_positions
  · intro q hq
    rw [getLsbD_setBit, withParity_parity d _ hq, withParity_parity d _ hq]
    by_cases hqp : q = p
    · subst hqp; simp [hlt]
    · simp [two_pow_sub_one_ne hqp, hqp]
  · intro r hr
    simp [getLsbD_setBit, dpos_sub_one_ne_two_pow_sub_one p hr, hr]

/-- A turn that finds its own slot at zero sums the data bits of its parity bit and nothing else (R54). -/
theorem parityTurn_withParity {M p : Nat} (d : BitVec (dataLen M)) (par : Nat → Bool) (hp : p < M)
    (hzero : par p = false) :
    parityTurn M (withParity M d par) p = withParity M d (Function.update par p (parityBit M d p)) := by
  have hsum : (xorOver ((positions M).filter fun j => j.testBit p) fun j => (withParity M d par).getLsbD (j - 1)) =
      parityBit M d p := by
    rw [← getLsbD_syndromeOf _ hp, getLsbD_syndromeOf_split _ hp, withParity_parity d par hp, hzero, Bool.false_xor]
    refine xorOver_congr fun r hr => withParity_data d par ?_
    exact List.mem_range.mp (List.mem_filter.mp hr).1
  rw [parityTurn, hsum, setBit_withParity d par _ hp]

/-- The parity slots after the first `n` turns. -/
def paritySlots (M : Nat) (d : BitVec (dataLen M)) (n q : Nat) : Bool := decide (q < n) && parityBit M d q

theorem paritySlots_succ (M : Nat) (d : BitVec (dataLen M)) (n : Nat) :
    paritySlots M d (n + 1) = Function.update (paritySlots M d n) n (parityBit M d n) := by
  funext q
  rcases Nat.lt_trichotomy q n with h | rfl | h
  · simp [paritySlots, h, h.ne, Nat.lt_succ_of_lt h]
  · simp [paritySlots]
  · simp [paritySlots, h.ne', show ¬ q < n + 1 by omega, show ¬ q < n by omega]

theorem foldl_parityTurn {M : Nat} (d : BitVec (dataLen M)) {n : Nat} (hn : n ≤ M) :
    (List.range n).foldl (parityTurn M) (positionedBits M d) = withParity M d (paritySlots M d n) := by
  induction n with
  | zero =>
    rw [positionedBits_eq_withParity]
    exact withParity_congr d fun p _ => by simp [paritySlots]
  | succ n ih =>
    rw [List.range_succ, List.foldl_append, ih (by omega), List.foldl_cons, List.foldl_nil,
      parityTurn_withParity d _ (by omega) (by simp [paritySlots]), paritySlots_succ]

theorem encodeSequence_written {M : Nat} (d : BitVec (dataLen M)) :
    encodeSequence M (written d) = .ok (written (codeword M d)) := by
  have hlast : withParity M d (paritySlots M d M) = codeword M d := by
    rw [codeword_eq_withParity]
    exact withParity_congr d fun p hp => by simp [paritySlots, hp]
  simp only [encodeSequence, positionBits_written, busOf_written]
  rw [foldl_parityTurn d (Nat.le_refl M), hlast]

/-- Settles O51, by `foldl_parityTurn`: after `n` turns the first `n` parity slots hold their parity bits. -/
theorem encodeAgreesWithPort : Obligations.EncodeAgreesWithPort :=
  fun _ d => encodeSequence_written d

/-! ## The walk of `extractDataBits` (43_hamming_error_locator.md R70) -/

/-- The walk skips the powers of two: it is the walk over the data positions. -/
theorem foldl_extractWalk_positions {M : Nat} {k : Nat} (cw : BitVec (codewordLen M)) (acc : BitVec k × Nat) :
    (positions M).foldl (extractWalk cw) acc = (dataPositions M).foldl (extractWalk cw) acc := by
  rw [dataPositions, List.foldl_filter]
  congr 1
  funext a j
  cases hj : isPow2 j <;> simp [extractWalk, hj]

/-- At the data position `dpos(r)`, with `r` bits collected, the walk collects bit `r` of `EXT`. -/
theorem extractWalk_dpos {M r : Nat} (cw : BitVec (codewordLen M)) (b : BitVec (dataLen M)) (hr : r < dataLen M) :
    extractWalk cw (b, r) (dpos M r) = (setBit b r ((extractedData M cw).getLsbD r), r + 1) := by
  simp [extractWalk, dpos_not_pow2 hr, getLsbD_extractedData cw hr]

theorem foldl_extractWalk_dpos {M : Nat} (cw : BitVec (codewordLen M)) {n : Nat} (hn : n ≤ dataLen M) :
    ((List.range n).map (dpos M)).foldl (extractWalk cw) ((0 : BitVec (dataLen M)), 0) =
      (assignAll 0 ((List.range n).map fun r => (r, (extractedData M cw).getLsbD r)), n) := by
  induction n with
  | zero => rfl
  | succ n ih =>
    rw [List.range_succ, List.map_append, List.foldl_append, ih (by omega), List.map_append, assignAll_append]
    exact extractWalk_dpos cw _ hn

theorem extractDataBits_written {M : Nat} (c : BitVec (codewordLen M)) :
    extractDataBits M (written c) = .ok (written (extractedData M c)) := by
  simp only [extractDataBits, checkedBus_written]
  rw [foldl_extractWalk_positions, ← map_dpos_range, foldl_extractWalk_dpos c (Nat.le_refl _),
    assignAll_range_getLsbD]

/-- Settles O52, by the walk over the data positions, `foldl_extractWalk_dpos`. -/
theorem extractDataBitsAgreesWithPort : Obligations.ExtractDataBitsAgreesWithPort :=
  fun _ c => extractDataBits_written c

/-! ## The matrix product on bits (41_gf2_matrix_mult_unit.md R60) -/

@[simp] theorem allBits_map_ofBool (l : List Nat) (f : Nat → Bool) :
    allBits (l.map fun j => .ofBool (f j)) = true := by
  simp [allBits_eq_all_isBit]

theorem getElem?_map_ofBool_beq_one {w j : Nat} (f : Nat → Bool) (hj : j < w) :
    (((List.range w).map fun i => Symbol.ofBool (f i))[j]? == some .one) = f j := by
  simp [hj]

theorem matrixVectorProduct_of_bits {R C : Nat} (mat : BitVec (R * C)) (vec : BitVec C) (m : SymbolMatrix)
    (hcols : m.cols = C)
    (hrows : m.rows = (List.range R).map fun i => (List.range C).map fun j => .ofBool (mat.getLsbD (i * C + j))) :
    matrixVectorProduct m ((List.range C).map fun j => .ofBool (vec.getLsbD j)) =
      .ok ((List.range R).map fun i => .ofBool ((matrixVector R C mat vec).getLsbD i)) := by
  have hlen : ((List.range C).map fun j => Symbol.ofBool (vec.getLsbD j)).length = m.cols := by simp [hcols]
  have hbits : (allBits ((List.range C).map fun j => .ofBool (vec.getLsbD j)) && m.rows.all allBits) = true := by
    simp [hrows]
  rw [matrixVectorProduct, if_neg (not_not_intro hlen), hbits, if_neg (by simp), hrows, hcols, List.map_map]
  refine congrArg Except.ok (List.map_congr_left fun i hi => congrArg Symbol.ofBool ?_)
  rw [getLsbD_matrixVector mat vec (List.mem_range.mp hi)]
  refine xorOver_congr fun j hj => ?_
  rw [getElem?_map_ofBool_beq_one _ (List.mem_range.mp hj), getElem?_map_ofBool_beq_one _ (List.mem_range.mp hj)]

/-- Settles O55, row by row and term by term. -/
theorem matrixVectorProductAgreesWithPort : Obligations.MatrixVectorProductAgreesWithPort :=
  fun _ _ mat vec m => matrixVectorProduct_of_bits mat vec m

/-! ## `detectError` and `check` (42_hamming_syndrome_calc.md R65, R68) -/

/-- The syndrome is the product of `H` with the word (R63). -/
theorem matrixVector_checkMatrixBus {M : Nat} (c : BitVec (codewordLen M)) :
    matrixVector M (codewordLen M) (checkMatrixBus M) c = syndromeOf M c := by
  apply BitVec.eq_of_getLsbD_eq
  intro i hi
  rw [getLsbD_matrixVector _ _ hi, getLsbD_syndromeOf _ hi, xorOver_filter, positions_eq_map_range, xorOver_map]
  refine xorOver_congr fun j hj => ?_
  rw [getLsbD_checkMatrixBus hi (List.mem_range.mp hj), Nat.add_sub_cancel]

theorem checkMatrixSymbols_rows (M : Nat) :
    (checkMatrixSymbols M).rows = (List.range M).map fun i => (List.range (codewordLen M)).map fun c =>
      .ofBool ((checkMatrixBus M).getLsbD (i * codewordLen M + c)) := by
  refine List.map_congr_left fun i hi => List.map_congr_left fun c hc => congrArg Symbol.ofBool ?_
  rw [getLsbD_checkMatrixBus (List.mem_range.mp hi) (List.mem_range.mp hc), checkMatrix]

theorem syndromeSymbols_written {M : Nat} (c : BitVec (codewordLen M)) :
    syndromeSymbols M (written c) = .ok ((List.range M).map fun i => .ofBool ((syndromeOf M c).getLsbD i)) := by
  simp only [syndromeSymbols, checkedBus_written]
  rw [matrixVectorProduct_of_bits (checkMatrixBus M) c _ rfl (checkMatrixSymbols_rows M), matrixVector_checkMatrixBus]

theorem detectError_written {M : Nat} (c : BitVec (codewordLen M)) :
    detectError M (written c) = .ok (syndromeOf M c).toNat := by
  simp only [detectError, syndromeSymbols_written, toNat_eq_bitsToNat]
  exact congrArg Except.ok (bitsToNat_congr fun i hi => getElem?_map_ofBool_beq_one _ hi)

/-- A bus is zero exactly when each of its bits is. -/
theorem all_bits_zero_eq_beq_zero {w : Nat} (b : BitVec w) :
    (((List.range w).map fun i => Symbol.ofBool (b.getLsbD i)).all fun c => c == .zero) = (b == 0) := by
  rw [Bool.eq_iff_iff, beq_iff_eq]
  constructor
  · intro h
    apply BitVec.eq_of_getLsbD_eq
    intro i hi
    simpa [hi] using List.all_eq_true.mp h _ (List.mem_map.mpr ⟨i, List.mem_range.mpr hi, rfl⟩)
  · rintro rfl
    simp

theorem checkSequence_written {M : Nat} (c : BitVec (codewordLen M)) :
    checkSequence M (written c) = .ok (syndromeOf M c == 0) := by
  simp only [checkSequence, syndromeSymbols_written, all_bits_zero_eq_beq_zero]

/-- Settles O53: the matrix product with `H` is the syndrome, read as a number or tested for zero. -/
theorem detectErrorAgreesWithPort : Obligations.DetectErrorAgreesWithPort :=
  fun _ c => ⟨detectError_written c, checkSequence_written c⟩

/-! ## `decode` (43_hamming_error_locator.md R76) -/

theorem flipSequence_written {M : Nat} (c : BitVec (codewordLen M)) (syn : BitVec M) :
    flipSequence M (written c) syn.toNat = written (flipNamed c syn) := by
  simp only [flipSequence, busOf_written, flipNamed]

/-- The flag is raised exactly when the syndrome names a position. -/
theorem errFlag_eq_toNat_bne {M : Nat} (syn : BitVec M) : errFlag syn = (syn.toNat != 0) := by
  rw [Bool.eq_iff_iff]
  simp [errFlag, BitVec.toNat_eq]

/-- Settles O54, each step of `decode` by the lemma of its own operation. -/
theorem decodeAgreesWithPort : Obligations.DecodeAgreesWithPort := by
  intro M c
  simp only [decodeSequence, detectError_written, flipSequence_written, extractDataBits_written]
  simp [decResponse, hammingErrorLocator, hammingSyndromeCalc, errFlag_eq_toNat_bne, toNat_errPos]

end Sys2Proof.Machine

/-! # Settled wires, data positions and the generator matrix (10_state.md) -/

namespace Sys2Proof.Machine

/-! ## What a step does to the wires (44_hamming_core.md R82, 30_encoding.md R47) -/

/-- The wires once the addressed unit has answered a transaction: its ports carry the request and the response, every
other unit's ports are as they were. `step_of_pending_cons` ties it to `step`. -/
def Wires.answered {M R C : Nat} (w : Wires M R C) : Request M R C → Wires M R C
  | .core q => { w with coreIn := q, coreOut := hammingCore q }
  | .locator c v => { w with locator := hammingErrorLocator c v }
  | .encoder d => { w with encoder := hammingEncoder d }
  | .syndrome c => { w with syndrome := hammingSyndromeCalc c }
  | .matrix mat vec => { w with matrix := gf2MatrixMultUnit mat vec }

theorem step_of_pending_nil {s : State} (h : s.pending = []) : step s = .next s := by
  simp only [step, h]

/-- One equation for every step that finds a transaction. -/
theorem step_of_pending_cons {s : State} {r : Request s.params.M s.shape.R s.shape.C}
    {rest : List (Request s.params.M s.shape.R s.shape.C)} (h : s.pending = r :: rest) :
    step s = .next { s with wires := s.wires.answered r, pending := rest } := by
  simp only [step, h, instrOnPorts_present]
  cases r with
  | core q => exact exec_instr (s := { s with wires := s.wires.present (.core q), pending := rest }) q
  | locator c v => exact exec_loc_written (s := { s with wires := s.wires.present (.locator c v), pending := rest }) c v
  | encoder d => rfl
  | syndrome c => rfl
  | matrix mat vec => rfl

/-! ## Settled wires (10_state.md R25) -/

/-- The answering unit's outputs are the function of the request it was given; the other units' ports do not move. -/
theorem Wires.Settled.answered {M R C : Nat} {w : Wires M R C} (h : w.Settled) (r : Request M R C) :
    (w.answered r).Settled := by
  cases r with
  | core q => exact { h with core := rfl }
  | locator c v => exact { h with locator := rfl }
  | encoder d => exact { h with encoder := rfl }
  | syndrome c => exact { h with syndrome := rfl }
  | matrix mat vec => exact { h with matrix := rfl }

/-- Settles O17: with no transaction left nothing moves, and an answered transaction keeps the wires settled. -/
theorem stepKeepsOutputsSettled : Obligations.StepKeepsOutputsSettled := by
  intro s t hs hstep
  cases hp : s.pending with
  | nil =>
    rw [step_of_pending_nil hp] at hstep
    cases hstep
    exact hs
  | cons r rest =>
    rw [step_of_pending_cons hp] at hstep
    cases hstep
    exact hs.answered r

/-! ## The units at zero -/

@[simp] theorem parityBit_zero (M p : Nat) : parityBit M 0#_ p = false := by
  simp [parityBit]

@[simp] theorem positionedBits_zero (M : Nat) : positionedBits M 0#_ = 0#_ :=
  eq_of_positions (fun p hp => by simp [positionedBits_parity _ hp]) (fun r hr => by simp [positionedBits_data _ hr])

@[simp] theorem codeword_zero (M : Nat) : codeword M 0#_ = 0#_ :=
  eq_of_positions (fun p hp => by simp [codeword_parity _ hp]) (fun r hr => by simp [codeword_data _ hr])

@[simp] theorem syndromeOf_zero (M : Nat) : syndromeOf M 0#_ = 0#_ := by
  apply BitVec.eq_of_getLsbD_eq
  intro i hi
  simp [getLsbD_syndromeOf _ hi]

@[simp] theorem matrixVector_zero (R C : Nat) (mat : BitVec (R * C)) : matrixVector R C mat 0#_ = 0#_ := by
  apply BitVec.eq_of_getLsbD_eq
  intro i hi
  simp [getLsbD_matrixVector _ _ hi]

@[simp] theorem extractedData_zero (M : Nat) : extractedData M 0#_ = 0#_ := by
  apply BitVec.eq_of_getLsbD_eq
  intro r hr
  simp [getLsbD_extractedData _ hr]

/-- The sentinel is all ones (43_hamming_error_locator.md R74). -/
@[simp] theorem errPos_zero (M : Nat) : errPos 0#M = BitVec.allOnes M := by
  apply BitVec.eq_of_toNat_eq
  simp [toNat_errPos, codewordLen]

/-- The locator without an error to correct: the word as it came, its data bits, the sentinel and no flag. -/
theorem hammingErrorLocator_zero {M : Nat} (c : BitVec (codewordLen M)) :
    hammingErrorLocator c 0#M = ⟨c, 0, c, extractedData M c, BitVec.allOnes M, false⟩ := by
  have hflip : flipNamed c 0#M = c := flipNamed_zero c
  simp [hammingErrorLocator, hflip, errFlag]

theorem init_settled (M R C : Nat) : (Wires.init M R C).Settled where
  core := by
    show _ = encResponse 0
    simp [Wires.init, encResponse, hammingEncoder, CoreResponse.zero, statusOk]
  encoder := by simp [Wires.init, hammingEncoder]
  matrix := by simp [Wires.init, gf2MatrixMultUnit]
  syndrome := by simp [Wires.init, hammingSyndromeCalc, okFlag]
  locator := by simp [Wires.init, hammingErrorLocator_zero]

/-- Settles O18: each unit, driven with zeros, gives the outputs that the wires hold at first. -/
theorem resetOutputsSettled : Obligations.ResetOutputsSettled :=
  ⟨fun _ _ => init_settled _ _ _, init_settled _ _ _⟩

/-! ## `LOC` on operands its ports cannot carry -/

theorem exec_loc_of_error {s : State} {cw synIn : List Symbol} {e : Fault}
    (h : checkedLocator s.M cw synIn = .error e) : exec (.loc cw synIn) s = .fault e := by
  simp only [exec, execLoc, h]

/-- Settles O31: the two errors of the operand check, lengths first. -/
theorem locateStopsOnIllFormedOperands : Obligations.LocateStopsOnIllFormedOperands := by
  intro s x y
  refine ⟨fun hlen => exec_loc_of_error (checkedLocator_of_length hlen), fun hx hy hsym => ?_⟩
  refine exec_loc_of_error (checkedLocator_of_symbol hx hy ?_)
  rcases hsym with h | h <;> simp [allBits_of_other h]

/-! ## Data positions (10_state.md R15) -/

theorem isPow2_eq_false_iff {j : Nat} : isPow2 j = false ↔ ∀ p, j ≠ 2 ^ p := by
  rw [Bool.eq_false_iff, ne_eq, isPow2_iff, not_exists]

theorem mem_dataPositions_iff_exists_dpos {M j : Nat} : j ∈ dataPositions M ↔ ∃ r < dataLen M, dpos M r = j :=
  ⟨exists_dpos, fun ⟨_, hr, he⟩ => he ▸ dpos_mem hr⟩

/-- A power of two among the positions is `2^p` for some `p < M`. -/
theorem exists_two_pow_iff {M j : Nat} :
    (∃ p < M, j = 2 ^ p) ↔ 1 ≤ j ∧ j ≤ codewordLen M ∧ ∃ p, j = 2 ^ p := by
  constructor
  · rintro ⟨p, hp, rfl⟩
    exact ⟨Nat.one_le_two_pow, two_pow_le_codewordLen hp, p, rfl⟩
  · rintro ⟨h1, h2, p, rfl⟩
    rcases position_cases h1 h2 with hpar | ⟨r, hr, he⟩
    · exact hpar
    · exact absurd he (two_pow_ne_dpos hr)

/-- Settles O32, by the laws of the list of data positions. -/
theorem dataPositionsAreNonPowersOfTwo : Obligations.DataPositionsAreNonPowersOfTwo := by
  refine fun M => ⟨fun q r => dpos_lt_dpos, fun j => ?_, fun j => exists_two_pow_iff⟩
  rw [← mem_dataPositions_iff_exists_dpos, mem_dataPositions, isPow2_eq_false_iff, and_assoc]

/-- Of the numbers `1..j`, all but the `floor(log2 j) + 1` powers of two are no power of two. -/
theorem length_filter_not_isPow2_range' {j : Nat} (hj : 1 ≤ j) :
    ((List.range' 1 j).filter fun i => !isPow2 i).length + (j.log2 + 1) = j := by
  obtain ⟨n, rfl⟩ := Nat.exists_eq_add_of_le' hj
  have h := List.length_eq_length_filter_add (l := List.range' 1 (n + 1)) isPow2
  rw [List.length_range', length_filter_isPow2_range'] at h
  omega

/-- The data position `dpos(r)` is the last of the first `r + 1` numbers that are no power of two. -/
theorem length_filter_not_isPow2_range'_dpos {M r : Nat} (hr : r < dataLen M) :
    ((List.range' 1 (dpos M r)).filter fun i => !isPow2 i).length = r + 1 := by
  obtain ⟨n, hn⟩ := Nat.exists_eq_add_of_le' (one_le_dpos hr)
  have hpow := dpos_not_pow2 hr
  have hle := dpos_le hr
  rw [hn] at hpow hle ⊢
  have hsplit : positions M = List.range' 1 n ++ (n + 1) :: List.range' (n + 2) (codewordLen M - (n + 1)) := by
    have h := List.range'_append_1 (s := 1) (m := n) (n := codewordLen M - n)
    rw [Nat.add_sub_cancel' (by omega), Nat.add_comm 1 n] at h
    rw [positions, ← h, show codewordLen M - n = codewordLen M - (n + 1) + 1 by omega, List.range'_succ]
  obtain ⟨hlt, hdpos⟩ := dpos_length_filter_not_isPow2 hsplit hpow
  have hcount := dpos_injective hlt hr (hdpos.trans hn.symm)
  rw [List.range'_concat, List.filter_append, List.length_append, hcount, Nat.one_mul, Nat.add_comm 1 n,
    List.filter_cons_of_pos (by simp [hpow])]
  rfl

theorem dpos_closed_form {M r : Nat} (hr : r < dataLen M) : dpos M r = r + 1 + ((dpos M r).log2 + 1) := by
  rw [← length_filter_not_isPow2_range'_dpos hr, length_filter_not_isPow2_range' (one_le_dpos hr)]

/-- A number that is no power of two has more numbers that are none at or below it than any smaller number has. -/
theorem length_filter_not_isPow2_range'_lt {i j : Nat} (hij : i < j) (hj : isPow2 j = false) :
    ((List.range' 1 i).filter fun k => !isPow2 k).length < ((List.range' 1 j).filter fun k => !isPow2 k).length := by
  obtain ⟨n, rfl⟩ := Nat.exists_eq_add_of_lt hij
  have hlast : i + n + 1 ∈ (List.range' (1 + i) (n + 1)).filter fun k => !isPow2 k := by
    simp only [List.mem_filter, List.mem_range'_1, hj, Bool.not_false, and_true]
    omega
  have hpos := List.length_pos_of_mem hlast
  rw [Nat.add_assoc i n 1, ← List.range'_append_1, List.filter_append, List.length_append]
  omega

/-- The closed form has at most one solution that is no power of two. -/
theorem closed_form_unique {i j r : Nat} (hi : isPow2 i = false) (hj : isPow2 j = false)
    (hir : i = r + 1 + (i.log2 + 1)) (hjr : j = r + 1 + (j.log2 + 1)) : i = j := by
  have hci := length_filter_not_isPow2_range' (j := i) (by omega)
  have hcj := length_filter_not_isPow2_range' (j := j) (by omega)
  rcases Nat.lt_trichotomy i j with h | h | h
  · have := length_filter_not_isPow2_range'_lt h hj
    omega
  · exact h
  · have := length_filter_not_isPow2_range'_lt h hi
    omega

/-- Settles O33: both sides of the closed form count the numbers at or below a position that are no power of two. -/
theorem dataPositionClosedForm : Obligations.DataPositionClosedForm := by
  intro M r hr j
  rw [← isPow2_eq_false_iff]
  constructor
  · rintro rfl
    exact ⟨dpos_not_pow2 hr, dpos_closed_form hr⟩
  · rintro ⟨hj, hjr⟩
    exact closed_form_unique hj (dpos_not_pow2 hr) hjr (dpos_closed_form hr)

/-! ## The generator matrix (10_state.md R17) -/

theorem generatorProduct_data {M c : Nat} (d : BitVec (dataLen M)) (hc : c < dataLen M) :
    generatorProduct M d c = d.getLsbD c := by
  rw [generatorProduct, xorOver_single List.nodup_range (List.mem_range.mpr hc)]
  · simp [generatorMatrix, hc]
  · intro r _ hr
    simp [generatorMatrix, hc, hr.symm]

theorem generatorProduct_parity_eq_xorOver {M : Nat} (d : BitVec (dataLen M)) (i : Nat) :
    generatorProduct M d (dataLen M + i) =
      xorOver (List.range (dataLen M)) fun r => d.getLsbD r && (dpos M r).testBit i := by
  simp [generatorProduct, generatorMatrix, checkMatrix]

theorem parityBit_eq_xorOver {M : Nat} (d : BitVec (dataLen M)) (i : Nat) :
    parityBit M d i = xorOver (List.range (dataLen M)) fun r => d.getLsbD r && (dpos M r).testBit i := by
  simp only [parityBit, xorOver_filter, Bool.and_comm]

theorem generatorProduct_parity {M i : Nat} (d : BitVec (dataLen M)) (hi : i < M) :
    generatorProduct M d (dataLen M + i) = (codeword M d).getLsbD (2 ^ i - 1) := by
  rw [generatorProduct_parity_eq_xorOver, codeword_parity d hi, parityBit_eq_xorOver]

/-- With two parity bits there is one data bit, at position 3, and both parity bits cover it. -/
theorem parityBit_two (d : BitVec (dataLen 2)) {i : Nat} (hi : i < 2) : parityBit 2 d i = d.getLsbD 0 := by
  have hrange : List.range (dataLen 2) = [0] := rfl
  have hdpos : dpos 2 0 = 3 := by decide
  have hbit : (3 : Nat).testBit i = true := by
    interval_cases i <;> rfl
  simp [parityBit_eq_xorOver, hrange, hdpos, hbit]

theorem codeword_two (d : BitVec (dataLen 2)) {k : Nat} (hk : k < codewordLen 2) :
    (codeword 2 d).getLsbD k = d.getLsbD 0 := by
  rcases position_cases (M := 2) (j := k + 1) (by omega) hk with ⟨p, hp, he⟩ | ⟨r, hr, he⟩
  · have hbit := codeword_parity d hp
    rwa [← he, Nat.add_sub_cancel, parityBit_two d hp] at hbit
  · have hbit := codeword_data d hr
    have hr0 : r = 0 := Nat.lt_one_iff.mp hr
    rwa [← he, Nat.add_sub_cancel, hr0] at hbit

theorem generatorProduct_two (d : BitVec (dataLen 2)) {c : Nat} (hc : c < codewordLen 2) :
    generatorProduct 2 d c = d.getLsbD 0 := by
  have hK : dataLen 2 = 1 := rfl
  have hN : codewordLen 2 = 3 := rfl
  rcases Nat.lt_or_ge c (dataLen 2) with h | h
  · have hc0 : c = 0 := by omega
    rw [generatorProduct_data d h, hc0]
  · obtain ⟨i, rfl⟩ := Nat.exists_eq_add_of_le h
    rw [generatorProduct_parity_eq_xorOver, ← parityBit_eq_xorOver, parityBit_two d (by omega)]

/-- From three parity bits on, the last position holds a data bit, and not the first one. -/
theorem exists_dpos_eq_codewordLen {M : Nat} (hM : 3 ≤ M) : ∃ r < dataLen M, r ≠ 0 ∧ dpos M r = codewordLen M := by
  have hlen := codewordLen_add_one M
  have hpow : 2 ^ 3 ≤ 2 ^ M := Nat.pow_le_pow_right (by omega) hM
  rcases position_cases (M := M) (j := codewordLen M) (by omega) (Nat.le_refl _) with ⟨p, hp, he⟩ | ⟨r, hr, he⟩
  · have hle : 2 ^ (p + 1) ≤ 2 ^ M := Nat.pow_le_pow_right (by omega) hp
    rw [Nat.pow_succ] at hle
    omega
  · refine ⟨r, hr, ?_, he.symm⟩
    rintro rfl
    obtain ⟨q, hq, hthree⟩ := exists_dpos (M := M) (j := 3) (mem_dataPositions.mpr ⟨⟨by omega, by omega⟩, by decide⟩)
    rcases Nat.eq_zero_or_pos q with rfl | hq0
    · omega
    · have := dpos_lt_dpos hq0 hq
      omega

/-- The string of the codeword begins with the data bit at position `N`, that of `x . G` with data bit 0. -/
theorem exists_generatorProduct_ne {M : Nat} (hM : 3 ≤ M) : ∃ d : BitVec (dataLen M), ∃ c < codewordLen M,
    generatorProduct M d c ≠ (codeword M d).getLsbD (codewordLen M - 1 - c) := by
  obtain ⟨r, hr, hr0, hlast⟩ := exists_dpos_eq_codewordLen hM
  have hK : 0 < dataLen M := by omega
  refine ⟨BitVec.twoPow _ 0, 0, ?_, ?_⟩
  · have := dataLen_add M
    omega
  · have hbit := codeword_data (BitVec.twoPow (dataLen M) 0) hr
    rw [hlast] at hbit
    rw [generatorProduct_data _ hK, Nat.sub_zero, hbit]
    simp [BitVec.getLsbD_twoPow, hr0.symm, hK]

/-- Settles O37, column by column; the strings differ at their first character once the last position is not the first
data position. -/
theorem generatorProductIsRearrangedCodeword : Obligations.GeneratorProductIsRearrangedCodeword := by
  refine ⟨fun d c hc => ?_, fun M => exists_generatorProduct_ne, fun M d => ⟨fun c hc => ?_,
    fun i hi => ?_⟩⟩
  · exact ⟨by rw [generatorProduct_two d hc, codeword_two d (by omega)], generatorProduct_two d hc⟩
  · exact ⟨generatorProduct_data d hc, by rw [generatorProduct_data d hc, codeword_data d hc]⟩
  · exact ⟨generatorProduct_parity_eq_xorOver d i, generatorProduct_parity d hi⟩

end Sys2Proof.Machine

/-! # Written strings and independent transactions (20_memory.md) -/

namespace Sys2Proof

/-! ## Strings of bits (20_memory.md R32) -/

theorem Symbol.ofBool_eq_ite (b : Bool) : Symbol.ofBool b = if b then .one else .zero := by cases b <;> rfl

theorem Symbol.isBit_iff (c : Symbol) : c.isBit = true ↔ c ≠ .other := by cases c <;> decide

theorem isBitString_iff {w : Nat} {x : List Symbol} :
    isBitString w x = true ↔ x.length = w ∧ Symbol.other ∉ x := by
  have hbits : (∀ c ∈ x, c ≠ Symbol.other) ↔ Symbol.other ∉ x := List.forall_mem_ne'
  simp only [isBitString, Bool.and_eq_true, beq_iff_eq, List.all_eq_true, Symbol.isBit_iff, hbits]

/-- Settles O5: the reading of `written` character by character, and its two round trips with `busOf`. -/
theorem writtenStringIsMostSignificantFirst : Obligations.WrittenStringIsMostSignificantFirst := by
  refine fun w b => ⟨written_length b, fun t ht => ?_, busOf_written b, fun x hlen hbits => ?_⟩
  · rw [written_getElem? b ht, Symbol.ofBool_eq_ite]
  · exact written_busOf (isBitString_iff.mpr ⟨hlen, hbits⟩)

end Sys2Proof

namespace Sys2Proof.Machine

/-! ## Transactions on one unit and on two (20_memory.md R36, R37) -/

section
variable {M R C : Nat} (w : Wires M R C)

/-- The answering unit's ports are overwritten with values that depend on the request alone (R36). -/
@[simp] theorem Wires.answered_answered (r : Request M R C) : (w.answered r).answered r = w.answered r := by
  cases r <;> rfl

/-- Different units have different ports, so neither answer overwrites or reads the other (R37). -/
theorem Wires.answered_comm {r q : Request M R C} (h : unitOf r ≠ unitOf q) :
    (w.answered r).answered q = (w.answered q).answered r := by
  cases r <;> cases q
  case core.core | locator.locator | encoder.encoder | syndrome.syndrome | matrix.matrix => exact absurd rfl h
  all_goals rfl

end

section
variable (s : State) (r q : Request s.params.M s.shape.R s.shape.C)
  (rest : List (Request s.params.M s.shape.R s.shape.C))

theorem run_one_of_pending_cons :
    run 1 { s with pending := r :: rest } = .next { s with wires := s.wires.answered r, pending := rest } := by
  simp only [run, step_of_pending_cons (s := { s with pending := r :: rest }) rfl]

theorem run_two_of_pending_cons_cons :
    run 2 { s with pending := r :: q :: rest } =
      .next { s with wires := (s.wires.answered r).answered q, pending := rest } := by
  rw [run, step_of_pending_cons (s := { s with pending := r :: q :: rest }) rfl]
  exact run_one_of_pending_cons { s with wires := s.wires.answered r } q rest

end

/-- Settles O13: both machines drive `hammingCore q`, which mentions no wire. -/
theorem responseIndependentOfHistory : Obligations.ResponseIndependentOfHistory := by
  intro s before q rest h
  exact ⟨hammingCore q, step_of_pending_cons h, step_of_pending_cons (s := { s with wires := before }) h⟩

/-- Settles O14: the two answers commute on the wires. -/
theorem transactionsOnDifferentUnitsCommute : Obligations.TransactionsOnDifferentUnitsCommute := by
  intro s r q rest h
  rw [run_two_of_pending_cons_cons, run_two_of_pending_cons_cons, Wires.answered_comm s.wires h]

/-- Settles O15: the second answer rewrites the wires with what they carry. -/
theorem transactionsAreIdempotent : Obligations.TransactionsAreIdempotent := by
  intro s r rest
  rw [run_two_of_pending_cons_cons, run_one_of_pending_cons, Wires.answered_answered]

end Sys2Proof.Machine

/-! # Packed requests and the transactions of a step (30_encoding.md) -/

namespace Sys2Proof

/-! ## Decoding a packed request (30_encoding.md R40, R41, R47) -/

theorem Op.ofBits_eq_iff {b : BitVec 3} {o : Op} : Op.ofBits b = o ↔ b = o.code := by
  constructor
  · rintro rfl
    exact (Op.code_ofBits b).symm
  · rintro rfl
    exact Op.ofBits_code o

/-- Every value of `op` is the code of an operation (R44). -/
theorem CoreRequest.exists_code {M : Nat} (q : CoreRequest M) :
    ∃ o : Op, q = ⟨o.code, q.dataIn, q.cwIn, q.matIn⟩ :=
  ⟨Op.ofBits q.op, by rw [Op.code_ofBits]⟩

theorem decode_word {M : Nat} (q : CoreRequest M) : decode M q.word = .ok q.instr := by
  simp [decode, CoreRequest.word]

/-- The width of a packed `LOC` is not that of a packed request, so the decoder reads it as a `LOC`. -/
theorem decode_packLocator {M : Nat} (hM : 2 ≤ M) (c : BitVec (codewordLen M)) (v : BitVec M) :
    decode M ⟨locatorRequestLen M, packLocator c v⟩ = .ok (.loc (written c) (written v)) := by
  have hne : locatorRequestLen M ≠ requestLen M := (locatorRequestLen_lt_requestLen hM).ne
  rw [decode, if_neg hne, if_pos rfl]
  simp [locatorInstr]

/-- Settles O2: the decoder reads each format's packed number field by field, and a well-formed operand is the writing
of its bus. -/
theorem decodeOfEncodeIsIdentity : Obligations.DecodeOfEncodeIsIdentity := by
  intro M i hM hwf
  cases i with
  | enc data | syn data | chk data | dec data | pos data | ext data =>
    rw [encode, decode_word]
    simp [CoreRequest.instr, written_busOf hwf]
  | mvm mat vec =>
    obtain ⟨hmat, hvec⟩ := Bool.and_eq_true_iff.mp hwf
    rw [encode, decode_word]
    simp [CoreRequest.instr, written_busOf hmat, written_busOf hvec]
  | illegal => exact decode_word _
  | loc cw synIn =>
    obtain ⟨hcw, hsyn⟩ := Bool.and_eq_true_iff.mp hwf
    rw [encode, decode_packLocator hM, written_busOf hcw, written_busOf hsyn]

theorem CoreRequest.instr_wf {M : Nat} (q : CoreRequest M) : q.instr.wf M = true := by
  unfold CoreRequest.instr
  cases Op.ofBits q.op <;> simp [Instr.wf]

theorem encode_instr {M : Nat} (q : CoreRequest M) : encode M q.instr = q.zeroUnread.word := by
  obtain ⟨o, hq⟩ := q.exists_code
  rw [hq]
  cases o <;> simp [CoreRequest.instr, CoreRequest.zeroUnread, encode]

/-- Settles O3, with the instruction on the request's ports. -/
theorem encodeOfDecodeZeroesUnreadFields : Obligations.EncodeOfDecodeZeroesUnreadFields :=
  fun _ q => ⟨q.instr, decode_word q, q.instr_wf, encode_instr q⟩

/-- Settles O1: each word is evaluated. -/
theorem publishedWordsDecode : Obligations.PublishedWordsDecode := by
  unfold Obligations.PublishedWordsDecode
  decide

/-! ## The bit numbers of the fields (30_encoding.md R40) -/

section
variable {M : Nat} (q : CoreRequest M) {i : Nat}

theorem CoreRequest.getLsbD_pack_dataIn (hi : i < dataLen M) : q.pack.getLsbD i = q.dataIn.getLsbD i := by
  simp only [CoreRequest.pack, BitVec.getLsbD_append]
  rw [if_pos (by omega), if_pos (by omega), if_pos hi]

theorem CoreRequest.getLsbD_pack_cwIn (hi : i < codewordLen M) :
    q.pack.getLsbD (dataLen M + i) = q.cwIn.getLsbD i := by
  simp only [CoreRequest.pack, BitVec.getLsbD_append]
  rw [if_pos (by omega), if_pos (by omega), if_neg (by omega), Nat.add_sub_cancel_left]

theorem CoreRequest.getLsbD_pack_matIn (hi : i < M * codewordLen M) :
    q.pack.getLsbD (dataLen M + codewordLen M + i) = q.matIn.getLsbD i := by
  rw [CoreRequest.pack, Nat.add_comm (dataLen M) (codewordLen M)]
  simp only [BitVec.getLsbD_append]
  rw [if_pos (by omega), if_neg (by omega), Nat.add_sub_cancel_left]

theorem CoreRequest.getLsbD_pack_op :
    q.pack.getLsbD (dataLen M + codewordLen M + M * codewordLen M + i) = q.op.getLsbD i := by
  rw [CoreRequest.pack, Nat.add_comm (dataLen M) (codewordLen M), Nat.add_comm _ (M * codewordLen M)]
  simp only [BitVec.getLsbD_append]
  rw [if_neg (by omega), Nat.add_sub_cancel_left]

end

/-- Settles O4, field by field. -/
theorem packedRequestBitNumbers : Obligations.PackedRequestBitNumbers :=
  fun _ q => ⟨fun _ hi => q.getLsbD_pack_dataIn hi, fun _ hi => q.getLsbD_pack_cwIn hi,
    fun _ hi => q.getLsbD_pack_matIn hi, fun _ _ => q.getLsbD_pack_op⟩

end Sys2Proof

namespace Sys2Proof.Machine

/-! ## The step of a transaction (30_encoding.md R40, R47) -/

/-- Settles O6: of the two things a step can do, only the first leaves room for an instruction. -/
theorem stepRunsDecodedInstruction : Obligations.StepRunsDecodedInstruction := by
  intro s r rest i hpending hinstr
  obtain ⟨j, hj, hstep⟩ | ⟨hnone, -⟩ := step_cons_cases hpending
  · obtain rfl : j = i := Option.some.inj (hj.symm.trans hinstr)
    exact hstep
  · cases hnone.symm.trans hinstr

/-- The instruction of a table word does not depend on the shape of the stand-alone matrix unit. -/
theorem instr_requestOfTableWord (M R C R' C' nbits w : Nat) :
    (requestOfTableWord M R C nbits w).instr = (requestOfTableWord M R' C' nbits w).instr := by
  simp only [requestOfTableWord]
  split
  · rfl
  · split <;> rfl

/-- Settles O7: the placed transaction has the instruction that the decoder reads, and the step runs that. -/
theorem stepRunsPlacedTableWord : Obligations.StepRunsPlacedTableWord := by
  intro nbits w i hdecode
  exact stepRunsDecodedInstruction (State.reset.withFetchWord nbits w) _ _ i rfl
    ((instr_requestOfTableWord ..).trans hdecode)

/-- Settles O16: the addressed unit answers the transaction, the product bit by bit. -/
theorem standaloneUnitsDriveAllOutputs : Obligations.StandaloneUnitsDriveAllOutputs := by
  intro s rest
  refine ⟨fun d h => step_of_pending_cons h, fun c h => step_of_pending_cons h, fun mat vec h => ?_⟩
  exact ⟨_, step_of_pending_cons h, fun i hi => getLsbD_matrixVector mat vec hi⟩

/-! ## The response to a request (30_encoding.md R42, R44) -/

/-- The ports an operation does not read may as well be zero (R42). -/
theorem hammingCore_zeroUnread {M : Nat} (q : CoreRequest M) : hammingCore q.zeroUnread = hammingCore q := by
  obtain ⟨o, hq⟩ := q.exists_code
  rw [hq]
  cases o <;> rfl

theorem hammingCore_eq_of_zeroUnread_eq {M : Nat} {q q' : CoreRequest M} (h : q.zeroUnread = q'.zeroUnread) :
    hammingCore q = hammingCore q' := by
  rw [← hammingCore_zeroUnread q, h, hammingCore_zeroUnread]

/-- Settles O12: the two requests are the same once the ports that are not read are set to zero. -/
theorem ignoredInputsHaveNoEffect : Obligations.IgnoredInputsHaveNoEffect := by
  intro M op d d' c c' m m'
  refine ⟨fun h => hammingCore_eq_of_zeroUnread_eq ?_, fun h => hammingCore_eq_of_zeroUnread_eq ?_,
    fun h => hammingCore_eq_of_zeroUnread_eq ?_, fun h => hammingCore_eq_of_zeroUnread_eq ?_⟩
  · simp only [List.mem_cons, List.not_mem_nil, or_false] at h
    rcases h with rfl | rfl <;> rfl
  · simp only [List.mem_cons, List.not_mem_nil, or_false] at h
    rcases h with rfl | rfl | rfl | rfl <;> rfl
  · subst h
    rfl
  · subst h
    rfl

theorem exec_illegal (s : State) : exec .illegal s = .next { s with wires := s.wires.report statusIllegalOp } := rfl

theorem instr_eq_illegal_iff {M : Nat} (q : CoreRequest M) : q.instr = .illegal ↔ q.op = Op.code .reserved := by
  rw [← Op.ofBits_eq_iff, CoreRequest.instr]
  cases Op.ofBits q.op <;> simp

/-- Settles O28, by the report of the reserved code and the reading of `op`. -/
theorem reservedCodeReportsIllegalOp : Obligations.ReservedCodeReportsIllegalOp :=
  ⟨exec_illegal, fun _ => instr_eq_illegal_iff⟩

end Sys2Proof.Machine

/-! # The encoder and its code (40_hamming_encoder.md) -/

namespace Sys2Proof.Machine

/-! ## `ENC` and `POS` on `hamming_core` (R51, R53) -/

theorem exec_enc_written {s : State} (d : BitVec (dataLen s.M)) :
    exec (.enc (written d)) s = .next { s with wires := s.wires.respond (encResponse d) } := by
  simp [exec, execEnc, State.formatD]

theorem exec_pos_written {s : State} (d : BitVec (dataLen s.M)) :
    exec (.pos (written d)) s = .next { s with wires := s.wires.respond (posResponse d) } := by
  simp [exec, execPos, State.formatD]

/-- Settles O20: the response is the codeword, read at the data and at the parity positions. -/
theorem encodeDrivesCodeword : Obligations.EncodeDrivesCodeword :=
  fun _ d => ⟨_, exec_enc_written d, rfl, fun _ hr => codeword_data d hr, fun _ hp => codeword_parity d hp⟩

/-- Settles O21: the response is the word of `POS`, read at the data and at the parity positions. -/
theorem positionDrivesDataBits : Obligations.PositionDrivesDataBits :=
  fun _ d => ⟨_, exec_pos_written d, rfl, fun _ hr => positionedBits_data d hr,
    fun _ hp => positionedBits_parity d hp⟩

/-! ## The data positions a parity bit covers (R54) -/

/-- Of the parity positions, bit `p` is set in `2^p` alone. -/
theorem filter_testBit_parityPositions {M p : Nat} (hp : p < M) :
    ((positions M).filter isPow2).filter (fun j => j.testBit p) = [2 ^ p] := by
  have hrange : (List.range M).filter (· = p) = [p] := by
    rw [List.filter_eq, List.count_eq_one_of_mem List.nodup_range (List.mem_range.mpr hp)]
    rfl
  simp only [filter_isPow2_positions, List.filter_map, Function.comp_def, Nat.testBit_two_pow, hrange, List.map_cons,
    List.map_nil]

theorem length_filter_testBit_dataPositions {M p : Nat} (hp : p < M) :
    ((dataPositions M).filter fun j => j.testBit p).length = 2 ^ (M - 1) - 1 := by
  have hsplit := List.length_eq_length_filter_add (l := (positions M).filter fun j => j.testBit p) isPow2
  rw [length_filter_testBit_positions M p hp, List.filter_comm, filter_testBit_parityPositions hp, List.filter_comm,
    ← dataPositions, List.length_singleton] at hsplit
  omega

theorem length_filter_testBit_dpos {M p : Nat} (hp : p < M) :
    ((List.range (dataLen M)).filter fun r => (dpos M r).testBit p).length = 2 ^ (M - 1) - 1 := by
  rw [← length_filter_testBit_dataPositions hp, ← map_dpos_range, List.filter_map, List.length_map]
  rfl

/-- Settles O34: of the `2^(M-1)` positions with bit `p` set, one is a parity position. -/
theorem eachParityBitCoversHalfOfPositions : Obligations.EachParityBitCoversHalfOfPositions :=
  fun _ _ => length_filter_testBit_dpos

/-! ## The code (R55) -/

@[simp] theorem extractedData_codeword {M : Nat} (d : BitVec (dataLen M)) : extractedData M (codeword M d) = d := by
  apply BitVec.eq_of_getLsbD_eq
  intro r hr
  rw [getLsbD_extractedData _ hr, codeword_data d hr]

/-- A syndrome bit compares a parity slot with the parity bit of the data word that stands in the codeword. -/
theorem getLsbD_syndromeOf_eq_slot_xor_parityBit {M i : Nat} (w : BitVec (codewordLen M)) (hi : i < M) :
    (syndromeOf M w).getLsbD i = (w.getLsbD (2 ^ i - 1) ^^ parityBit M (extractedData M w) i) := by
  rw [getLsbD_syndromeOf_split w hi, parityBit]
  congr 1
  refine xorOver_congr fun r hr => (getLsbD_extractedData w ?_).symm
  exact List.mem_range.mp (List.mem_filter.mp hr).1

@[simp] theorem syndromeOf_codeword {M : Nat} (d : BitVec (dataLen M)) : syndromeOf M (codeword M d) = 0#M := by
  apply BitVec.eq_of_getLsbD_eq
  intro i hi
  rw [getLsbD_syndromeOf_eq_slot_xor_parityBit _ hi, codeword_parity d hi, extractedData_codeword, Bool.xor_self,
    BitVec.getLsbD_zero]

/-- A word that passes the check is the encoding of its own data word. -/
theorem codeword_extractedData {M : Nat} {w : BitVec (codewordLen M)} (h : syndromeOf M w = 0#M) :
    codeword M (extractedData M w) = w := by
  apply eq_of_positions
  · intro p hp
    have hbit := getLsbD_syndromeOf_eq_slot_xor_parityBit w hp
    rw [h, BitVec.getLsbD_zero] at hbit
    rw [codeword_parity _ hp]
    exact (bne_eq_false_iff_eq.mp hbit.symm).symm
  · intro r hr
    rw [codeword_data _ hr, getLsbD_extractedData w hr]

theorem syndromeOf_eq_zero_iff {M : Nat} {w : BitVec (codewordLen M)} :
    syndromeOf M w = 0#M ↔ ∃ d, codeword M d = w := by
  constructor
  · intro h
    exact ⟨extractedData M w, codeword_extractedData h⟩
  · rintro ⟨d, rfl⟩
    exact syndromeOf_codeword d

theorem codeword_injective (M : Nat) : Function.Injective (codeword M) :=
  Function.LeftInverse.injective (g := extractedData M) extractedData_codeword

theorem parityBit_xor {M : Nat} (a b : BitVec (dataLen M)) (p : Nat) :
    parityBit M (a ^^^ b) p = (parityBit M a p ^^ parityBit M b p) := by
  simp only [parityBit, BitVec.getLsbD_xor, xorOver_xor]

theorem codeword_xor {M : Nat} (a b : BitVec (dataLen M)) : codeword M (a ^^^ b) = codeword M a ^^^ codeword M b := by
  apply eq_of_positions
  · intro p hp
    simp only [BitVec.getLsbD_xor, codeword_parity _ hp, parityBit_xor]
  · intro r hr
    simp only [BitVec.getLsbD_xor, codeword_data _ hr]

/-- A parity bit covers an odd number of data bits, so it is one when all of them are. -/
theorem parityBit_allOnes {M p : Nat} (hM : 2 ≤ M) (hp : p < M) : parityBit M (BitVec.allOnes _) p = true := by
  have hones : parityBit M (BitVec.allOnes _) p =
      xorOver ((List.range (dataLen M)).filter fun r => (dpos M r).testBit p) fun _ => true := by
    refine xorOver_congr fun r hr => ?_
    rw [BitVec.getLsbD_allOnes]
    exact decide_eq_true (List.mem_range.mp (List.mem_filter.mp hr).1)
  have hodd : (2 ^ (M - 1) - 1) % 2 = 1 := by
    obtain ⟨n, rfl⟩ := Nat.exists_eq_add_of_le' hM
    have := Nat.one_le_two_pow (n := n)
    rw [show n + 2 - 1 = n + 1 from rfl, Nat.pow_succ]
    omega
  rw [hones, xorOver_true, length_filter_testBit_dpos hp, hodd]
  rfl

theorem codeword_allOnes {M : Nat} (hM : 2 ≤ M) : codeword M (BitVec.allOnes _) = BitVec.allOnes _ := by
  apply eq_of_positions
  · intro p hp
    have hlt : 2 ^ p - 1 < codewordLen M := by
      have := Nat.one_le_two_pow (n := p)
      have := two_pow_le_codewordLen hp
      omega
    simp only [codeword_parity _ hp, parityBit_allOnes hM hp, BitVec.getLsbD_allOnes, hlt, decide_true]
  · intro r hr
    have hlt : dpos M r - 1 < codewordLen M := by
      have := one_le_dpos hr
      have := dpos_le hr
      omega
    simp only [codeword_data _ hr, BitVec.getLsbD_allOnes, hr, hlt]

/-- Settles O38: extraction undoes `ENC`, and a word without syndrome is the encoding of its extraction. -/
theorem encodeProperties : Obligations.EncodeProperties :=
  fun _ hM => ⟨syndromeOf_codeword, extractedData_codeword, codeword_xor, codeword_zero _, codeword_allOnes hM,
    fun _ _ h => codeword_injective _ h, fun _ => syndromeOf_eq_zero_iff⟩

end Sys2Proof.Machine

/-! # The matrix unit (41_gf2_matrix_mult_unit.md) -/

namespace Sys2Proof.Machine

/-! ## The product over GF(2) (R61, R62) -/

theorem exec_mvm_written {s : State} (m : BitVec (s.M * codewordLen s.M)) (v : BitVec (codewordLen s.M)) :
    exec (.mvm (written m) (written v)) s = .next { s with wires := s.wires.respond (mvmResponse (m, v)) } := by
  simp [exec, execMvm, State.formatMC]

/-- Settles O22: the response is the product of the two operands, read bit by bit. -/
theorem matrixVectorDrivesProduct : Obligations.MatrixVectorDrivesProduct :=
  ⟨fun _ _ mat vec _ hi => getLsbD_matrixVector mat vec hi, fun _ m v => exec_mvm_written m v⟩

theorem matrixVector_xor_right {R C : Nat} (A : BitVec (R * C)) (v u : BitVec C) :
    matrixVector R C A (v ^^^ u) = matrixVector R C A v ^^^ matrixVector R C A u := by
  apply BitVec.eq_of_getLsbD_eq
  intro i hi
  simp only [BitVec.getLsbD_xor, getLsbD_matrixVector _ _ hi, Bool.and_xor_distrib_left, xorOver_xor]

theorem matrixVector_xor_left {R C : Nat} (A B : BitVec (R * C)) (v : BitVec C) :
    matrixVector R C (A ^^^ B) v = matrixVector R C A v ^^^ matrixVector R C B v := by
  apply BitVec.eq_of_getLsbD_eq
  intro i hi
  simp only [BitVec.getLsbD_xor, getLsbD_matrixVector _ _ hi, Bool.and_xor_distrib_right, xorOver_xor]

/-- The terms that are zero do not count, and each of the others is one. -/
theorem toNat_xorOver (S : List Nat) (e : Nat → Bool) : (xorOver S e).toNat = (S.filter e).length % 2 := by
  have hones : xorOver (S.filter e) (fun _ => true) = xorOver S e := by
    simp only [xorOver_filter, Bool.and_true]
  rw [← hones, xorOver_true]
  rcases Nat.mod_two_eq_zero_or_one (S.filter e).length with h | h <;> simp [h]

/-- Settles O36, bit by bit: the sum over a row respects XOR and counts the ones among its terms. -/
theorem matrixProductIsLinear : Obligations.MatrixProductIsLinear := by
  intro R C A B v u
  refine ⟨matrixVector_xor_right A v u, matrixVector_xor_left A B v, fun i hi => ?_⟩
  rw [getLsbD_matrixVector A v hi, toNat_xorOver]

/-! ## The product with `H` (R63) -/

theorem exec_syn_written {s : State} (c : BitVec (codewordLen s.M)) :
    exec (.syn (written c)) s = .next { s with wires := s.wires.respond (synResponse c) } := by
  simp [exec, execSyn, State.formatC]

theorem mvmResponse_checkMatrixBus {M : Nat} (c : BitVec (codewordLen M)) :
    mvmResponse (checkMatrixBus M, c) = synResponse c := by
  simp only [mvmResponse, gf2MatrixMultUnit, matrixVector_checkMatrixBus, synResponse, hammingSyndromeCalc]

/-- Settles O35: the product with `H` is the syndrome, so the two responses are the same. -/
theorem matrixUnitWithCheckMatrixIsSyndrome : Obligations.MatrixUnitWithCheckMatrixIsSyndrome := by
  refine ⟨fun _ _ _ hi hc => getLsbD_checkMatrixBus hi hc, by decide,
    fun _ c => (matrixVector_checkMatrixBus c).symm, fun s c => ?_⟩
  calc exec (.mvm (written (checkMatrixBus s.M)) (written c)) s
    _ = .next { s with wires := s.wires.respond (mvmResponse (checkMatrixBus s.M, c)) } := exec_mvm_written _ c
    _ = .next { s with wires := s.wires.respond (synResponse c) } := by rw [mvmResponse_checkMatrixBus]
    _ = exec (.syn (written c)) s := (exec_syn_written c).symm

end Sys2Proof.Machine

/-! # The syndrome and the code (42_hamming_syndrome_calc.md) -/

namespace Sys2Proof.Machine

/-! ## The values of the syndrome (R66, R67) -/

theorem syndromeOf_xor {M : Nat} (a b : BitVec (codewordLen M)) :
    syndromeOf M (a ^^^ b) = syndromeOf M a ^^^ syndromeOf M b := by
  apply BitVec.eq_of_getLsbD_eq
  intro i hi
  simp only [BitVec.getLsbD_xor, getLsbD_syndromeOf _ hi, xorOver_xor]

/-- No position number has a bit at or above `M`. -/
theorem testBit_position_of_ge {M i j : Nat} (hj : j ∈ positions M) (hi : M ≤ i) : j.testBit i = false := by
  have hle := (mem_positions.mp hj).2
  have hlen := codewordLen_add_one M
  have hpow : 2 ^ M ≤ 2 ^ i := Nat.pow_le_pow_right (by omega) hi
  exact Nat.testBit_lt_two_pow (by omega)

/-- What R67 (c) says of an error pattern holds of every word: bit `i` of either side is the XOR over the positions with
bit `i` set. -/
theorem toNat_syndromeOf {M : Nat} (e : BitVec (codewordLen M)) :
    (syndromeOf M e).toNat = ((positions M).filter fun j => e.getLsbD (j - 1)).foldr (· ^^^ ·) 0 := by
  apply Nat.eq_of_testBit_eq
  intro i
  rw [BitVec.testBit_toNat, testBit_foldr_xor, xorOver_filter]
  rcases Nat.lt_or_ge i M with hi | hi
  · simp only [getLsbD_syndromeOf e hi, xorOver_filter, Bool.and_comm]
  · rw [BitVec.getLsbD_of_ge _ _ hi, ← xorOver_false (positions M)]
    exact xorOver_congr fun j hj => by rw [testBit_position_of_ge hj hi, Bool.and_false]

theorem filter_getLsbD_twoPow_positions {M k : Nat} (hk : k < codewordLen M) :
    ((positions M).filter fun j => (BitVec.twoPow (codewordLen M) k).getLsbD (j - 1)) = [k + 1] := by
  have hone : ∀ j ∈ positions M, (BitVec.twoPow (codewordLen M) k).getLsbD (j - 1) = decide (j = k + 1) := by
    intro j hj
    obtain ⟨h1, -⟩ := mem_positions.mp hj
    rw [BitVec.getLsbD_twoPow, decide_eq_true hk, Bool.true_and, decide_eq_decide]
    omega
  rw [List.filter_congr hone, List.filter_eq,
    List.count_eq_one_of_mem (positions_nodup M) (mem_positions.mpr (by omega))]
  rfl

/-- The word with a single one has the one's position number as its syndrome (R67 (b)). -/
theorem toNat_syndromeOf_twoPow {M k : Nat} (hk : k < codewordLen M) :
    (syndromeOf M (BitVec.twoPow _ k)).toNat = k + 1 := by
  rw [toNat_syndromeOf, filter_getLsbD_twoPow_positions hk]
  simp

theorem syndromeOf_allOnes {M : Nat} (hM : 2 ≤ M) : syndromeOf M (BitVec.allOnes _) = 0#M := by
  rw [← codeword_allOnes hM, syndromeOf_codeword]

/-! ## Flips (R67, R69) -/

theorem toNat_syndromeOf_flip {M k : Nat} (w : BitVec (codewordLen M)) (hk : k < codewordLen M) :
    (syndromeOf M (w ^^^ BitVec.twoPow _ k)).toNat = (syndromeOf M w).toNat ^^^ (k + 1) := by
  rw [syndromeOf_xor, BitVec.toNat_xor, toNat_syndromeOf_twoPow hk]

/-- The one flip that clears a syndrome is the flip of the position it names. -/
theorem syndromeOf_flip_eq_zero_iff {M k : Nat} (w : BitVec (codewordLen M)) (hk : k < codewordLen M) :
    syndromeOf M (w ^^^ BitVec.twoPow _ k) = 0#M ↔ (syndromeOf M w).toNat = k + 1 := by
  rw [← BitVec.toNat_inj, toNat_syndromeOf_flip w hk, BitVec.toNat_zero, Nat.xor_eq_zero_iff]

theorem toNat_syndromeOf_two_flips {M a b : Nat} {c : BitVec (codewordLen M)} (hc : syndromeOf M c = 0#M)
    (ha : 1 ≤ a) (haN : a ≤ codewordLen M) (hb : 1 ≤ b) (hbN : b ≤ codewordLen M) :
    (syndromeOf M (c ^^^ BitVec.twoPow _ (a - 1) ^^^ BitVec.twoPow _ (b - 1))).toNat = a ^^^ b := by
  rw [toNat_syndromeOf_flip _ (by omega), toNat_syndromeOf_flip _ (by omega), hc, BitVec.toNat_zero, Nat.zero_xor,
    Nat.sub_add_cancel ha, Nat.sub_add_cancel hb]

/-- Settles O39: linearity, the sum of the position numbers of the ones, and the flip of a named position. -/
theorem syndromeNamesXorOfPositions : Obligations.SyndromeNamesXorOfPositions := by
  intro M hM
  refine ⟨syndromeOf_xor, fun j h1 hN => ?_, fun c e hc => ?_, fun c a b hc ha haN hb hbN hab => ?_,
    fun c => syndrome_le_codewordLen _, syndromeOf_zero M, syndromeOf_allOnes hM⟩
  · rw [toNat_syndromeOf_twoPow (by omega), Nat.sub_add_cancel h1]
  · rw [syndromeOf_xor, hc, BitVec.ofNat_eq_ofNat, BitVec.zero_xor]
    exact toNat_syndromeOf e
  · have hsyn := toNat_syndromeOf_two_flips hc ha haN hb hbN
    have hne : a ^^^ b ≠ 0 := fun h => hab (Nat.xor_eq_zero_iff.mp h)
    have hle : a ^^^ b ≤ codewordLen M := hsyn ▸ syndrome_le_codewordLen _
    refine ⟨hsyn, hne, fun h => ?_, fun h => ?_, ?_⟩
    · have : b = 0 := Nat.xor_right_inj.mp (h.trans (Nat.xor_zero a).symm)
      omega
    · have : a = 0 := Nat.xor_left_inj.mp (h.trans (Nat.zero_xor b).symm)
      omega
    · refine (syndromeOf_flip_eq_zero_iff _ (by omega)).mpr ?_
      rw [hsyn]
      omega

/-- Settles O41: a flip clears the syndrome exactly when the syndrome names it. -/
theorem everyWordIsNearExactlyOneCodeword : Obligations.EveryWordIsNearExactlyOneCodeword := by
  intro M w _
  rcases Nat.eq_zero_or_pos (syndromeOf M w).toNat with hzero | hpos
  · refine .inl ⟨BitVec.eq_of_toNat_eq hzero, fun k hk hflip => ?_⟩
    have := (syndromeOf_flip_eq_zero_iff w hk).mp hflip
    omega
  · have hle := syndrome_le_codewordLen (syndromeOf M w)
    refine .inr ⟨fun h => ?_, (syndromeOf M w).toNat - 1, by omega, ?_, fun l hl hflip => ?_⟩
    · simp [h] at hpos
    · exact (syndromeOf_flip_eq_zero_iff w (by omega)).mpr (by omega)
    · have := (syndromeOf_flip_eq_zero_iff w hl).mp hflip
      omega

/-! ## `SYN` and `CHK` on `hamming_core` (R66, R68) -/

/-- Settles O23: the response is the syndrome, read bit by bit. -/
theorem syndromeDrivesParityOfPositions : Obligations.SyndromeDrivesParityOfPositions :=
  fun _ c => ⟨_, exec_syn_written c, rfl, fun _ hi => getLsbD_syndromeOf c hi⟩

theorem exec_chk_written {s : State} (c : BitVec (codewordLen s.M)) :
    exec (.chk (written c)) s = .next { s with wires := s.wires.respond (chkResponse c) } := by
  simp [exec, execChk, State.formatC]

theorem okFlag_eq_true_iff {M : Nat} {syn : BitVec M} : okFlag syn = true ↔ syn = 0#M := beq_iff_eq

theorem eq_zero_iff_getLsbD_eq_false {w : Nat} {b : BitVec w} : b = 0#w ↔ ∀ i < w, b.getLsbD i = false := by
  constructor
  · rintro rfl i -
    exact BitVec.getLsbD_zero
  · intro h
    exact BitVec.eq_of_getLsbD_eq fun i hi => by rw [h i hi, BitVec.getLsbD_zero]

/-- Settles O24: the flag tests the syndrome for zero, and a bus is zero when each of its bits is. -/
theorem checkDrivesZeroTest : Obligations.CheckDrivesZeroTest :=
  fun _ c => ⟨_, _, exec_syn_written c, exec_chk_written c, okFlag_eq_true_iff.trans eq_zero_iff_getLsbD_eq_false⟩

/-! ## The words that pass (R69) -/

theorem syndromeOf_eq_zero_iff_codeword_extractedData {M : Nat} {w : BitVec (codewordLen M)} :
    syndromeOf M w = 0#M ↔ codeword M (extractedData M w) = w :=
  ⟨codeword_extractedData, fun h => h ▸ syndromeOf_codeword _⟩

/-- Two answers of `hamming_core` are the same state exactly when they are the same response. -/
theorem next_respond_inj {s : State} {o o' : CoreResponse s.M} :
    (Host.Outcome.next { s with wires := s.wires.respond o } : Result) =
      .next { s with wires := s.wires.respond o' } ↔ o = o' := by
  simp [Wires.respond]

theorem chkResponse_eq_iff {M : Nat} {w : BitVec (codewordLen M)} :
    chkResponse w = ⟨0, 0, 0, 0, false, true, 0⟩ ↔ syndromeOf M w = 0#M := by
  simp [chkResponse, CoreResponse.zero, statusOk, hammingSyndromeCalc, okFlag_eq_true_iff]

theorem encResponse_eq_iff {M : Nat} {d : BitVec (dataLen M)} {w : BitVec (codewordLen M)} :
    encResponse d = ⟨w, 0, 0, 0, false, false, 0⟩ ↔ codeword M d = w := by
  simp [encResponse, CoreResponse.zero, statusOk, hammingEncoder]

/-- Settles O40: a word passes when its syndrome is zero, and then it is the encoding of its extraction. -/
theorem wordsThatPassAreCodewords : Obligations.WordsThatPassAreCodewords := by
  intro s w
  rw [exec_chk_written, exec_enc_written]
  calc _
    _ ↔ chkResponse w = ⟨0, 0, 0, 0, false, true, 0⟩ := next_respond_inj
    _ ↔ syndromeOf s.M w = 0#s.M := chkResponse_eq_iff
    _ ↔ codeword s.M (extractedData s.M w) = w := syndromeOf_eq_zero_iff_codeword_extractedData
    _ ↔ encResponse (extractedData s.M w) = ⟨w, 0, 0, 0, false, false, 0⟩ := encResponse_eq_iff.symm
    _ ↔ _ := next_respond_inj.symm

end Sys2Proof.Machine

/-! # The error locator (43_hamming_error_locator.md) -/

namespace Sys2Proof.Machine

/-! ## The index and the flag (R72, R74) -/

theorem toNat_errPos_eq_mod {M : Nat} (v : BitVec M) : (errPos v).toNat = (codewordLen M - v.toNat) % 2 ^ M :=
  BitVec.toNat_ofNat _ _

theorem errPos_eq_not {M : Nat} (v : BitVec M) : errPos v = ~~~v := by
  apply BitVec.eq_of_toNat_eq
  rw [toNat_errPos, BitVec.toNat_not, codewordLen]

theorem toNat_errPos_lt {M : Nat} {v : BitVec M} (hv : v ≠ 0#M) : (errPos v).toNat < codewordLen M := by
  have hpos : v.toNat ≠ 0 := BitVec.toNat_ne_iff_ne.mpr hv
  have hle := syndrome_le_codewordLen v
  rw [toNat_errPos]
  omega

theorem errFlag_eq_true_iff {M : Nat} {v : BitVec M} : errFlag v = true ↔ v.toNat ≠ 0 := by
  rw [errFlag_eq_toNat_bne, bne_iff_ne]

/-- Settles O47: `N` is all ones on `M` bits, so subtracting the syndrome from it complements the syndrome. -/
theorem errorIndexIsComplementOfSyndrome : Obligations.ErrorIndexIsComplementOfSyndrome := by
  refine fun M v => ⟨toNat_errPos_eq_mod v, errPos_eq_not v, fun hv => ⟨toNat_errPos_lt hv, toNat_errPos v⟩, ?_⟩
  rintro rfl
  rw [BitVec.ofNat_eq_ofNat, errPos_zero, BitVec.toNat_allOnes]

/-! ## Extraction (R71) -/

theorem extractedData_congr {M : Nat} {a b : BitVec (codewordLen M)}
    (h : ∀ r < dataLen M, a.getLsbD (dpos M r - 1) = b.getLsbD (dpos M r - 1)) :
    extractedData M a = extractedData M b :=
  ofBits_congr h

@[simp] theorem extractedData_positionedBits {M : Nat} (d : BitVec (dataLen M)) :
    extractedData M (positionedBits M d) = d := by
  rw [← extractedData_codeword d]
  refine extractedData_congr fun r hr => ?_
  rw [extractedData_codeword, positionedBits_data d hr, codeword_data d hr]

/-- No data position is a parity position, so extraction does not see a parity slot. -/
theorem extractedData_flip_parity {M : Nat} (c : BitVec (codewordLen M)) (p : Nat) :
    extractedData M (c ^^^ BitVec.twoPow _ (2 ^ p - 1)) = extractedData M c := by
  refine extractedData_congr fun r hr => ?_
  have hne : 2 ^ p - 1 ≠ dpos M r - 1 := (dpos_sub_one_ne_two_pow_sub_one p hr).symm
  simp [BitVec.getLsbD_twoPow, hne]

theorem extractedData_xor {M : Nat} (a b : BitVec (codewordLen M)) :
    extractedData M (a ^^^ b) = extractedData M a ^^^ extractedData M b := by
  apply BitVec.eq_of_getLsbD_eq
  intro r hr
  simp only [BitVec.getLsbD_xor, getLsbD_extractedData _ hr]

/-- With its parity slots at zero, the word of `POS` has the parity bits of `ENC` as its syndrome (R54). -/
theorem getLsbD_syndromeOf_positionedBits {M p : Nat} (d : BitVec (dataLen M)) (hp : p < M) :
    (syndromeOf M (positionedBits M d)).getLsbD p = (codeword M d).getLsbD (2 ^ p - 1) := by
  rw [getLsbD_syndromeOf_eq_slot_xor_parityBit _ hp, positionedBits_parity d hp, extractedData_positionedBits,
    Bool.false_xor, codeword_parity d hp]

/-- Settles O48, by the laws of extraction and the syndrome of the word of `POS`. -/
theorem extractionIgnoresParityPositions : Obligations.ExtractionIgnoresParityPositions :=
  fun _ => ⟨fun d => ⟨extractedData_positionedBits d, extractedData_codeword d⟩,
    fun c p _ => extractedData_flip_parity c p, extractedData_xor,
    fun d _ hp => ⟨positionedBits_parity d hp, getLsbD_syndromeOf_positionedBits d hp⟩⟩

/-! ## `EXT`, `LOC` and `DEC` on their units (R71, R72, R75) -/

theorem extResponse_eq {M : Nat} (c : BitVec (codewordLen M)) :
    extResponse c = ⟨0, extractedData M c, 0, 0, false, false, 0⟩ := by
  simp only [extResponse, BitVec.ofNat_eq_ofNat, hammingErrorLocator_zero, CoreResponse.zero, statusOk]

section
variable {s : State} (c : BitVec (codewordLen s.M))

theorem exec_ext_written :
    exec (.ext (written c)) s = .next { s with wires := s.wires.respond (extResponse c) } := by
  simp [exec, execExt, State.formatC]

theorem exec_dec_written :
    exec (.dec (written c)) s = .next { s with wires := s.wires.respond (decResponse c) } := by
  simp [exec, execDec, State.formatC]

theorem exec_ext_drives_extractedData :
    exec (.ext (written c)) s = .next { s with wires := { s.wires with
      coreOut := ⟨0, extractedData s.M c, 0, 0, false, false, 0⟩ } } := by
  rw [exec_ext_written, extResponse_eq]
  rfl

end

/-- Settles O25: the response is the extracted word, read bit by bit. -/
theorem extractDrivesDataBits : Obligations.ExtractDrivesDataBits :=
  fun _ c => ⟨_, exec_ext_drives_extractedData c, fun _ hr => getLsbD_extractedData c hr⟩

/-- Settles O26: the locator's results, each by the lemma of its own function. -/
theorem locateFlipsNamedBit : Obligations.LocateFlipsNamedBit :=
  fun _ c v => ⟨flipNamed c v, _, _, _, exec_loc_written c v, fun _ hk => getLsbD_flipNamed c v hk,
    fun _ hr => getLsbD_extractedData _ hr, toNat_errPos_eq_mod v, errFlag_eq_true_iff⟩

/-- Settles O27: the locator's results for the syndrome of the same word. -/
theorem decodeFlipsSyndromePosition : Obligations.DecodeFlipsSyndromePosition :=
  fun s c => ⟨syndromeOf s.M c, flipNamed c (syndromeOf s.M c), _, _, _, exec_syn_written c, exec_dec_written c,
    fun _ hk => getLsbD_flipNamed c _ hk, fun _ hr => getLsbD_extractedData _ hr, toNat_errPos_eq_mod _,
    errFlag_eq_true_iff⟩

/-! ## The two things `DEC` can do (R75) -/

/-- The flip of a position that exists inverts the one bit there. -/
theorem flipNamed_of_toNat_eq_succ {M k : Nat} (w : BitVec (codewordLen M)) {v : BitVec M} (hv : v.toNat = k + 1) :
    flipNamed w v = w ^^^ BitVec.twoPow _ k := by
  apply BitVec.eq_of_getLsbD_eq
  intro i hi
  rw [getLsbD_flipNamed w v hi, hv, BitVec.getLsbD_xor, BitVec.getLsbD_twoPow]
  by_cases hik : i = k
  · subst hik
    simp [hi]
  · simp [hik, Ne.symm hik]

theorem decResponse_of_syndromeOf_eq_zero {M : Nat} {w : BitVec (codewordLen M)} (h : syndromeOf M w = 0#M) :
    decResponse w = ⟨w, extractedData M w, 0, BitVec.allOnes M, false, false, 0⟩ := by
  simp only [decResponse, hammingSyndromeCalc, h, hammingErrorLocator_zero, CoreResponse.zero, statusOk]

theorem decResponse_of_syndromeOf_eq_succ {M k : Nat} {w : BitVec (codewordLen M)}
    (h : (syndromeOf M w).toNat = k + 1) :
    decResponse w = ⟨w ^^^ BitVec.twoPow _ k, extractedData M (w ^^^ BitVec.twoPow _ k), 0,
      BitVec.ofNat M (codewordLen M - (k + 1)), true, false, 0⟩ := by
  have hflag : errFlag (syndromeOf M w) = true := errFlag_eq_true_iff.mpr (by omega)
  simp only [decResponse, hammingSyndromeCalc, hammingErrorLocator, flipNamed_of_toNat_eq_succ w h, hflag, errPos, h,
    CoreResponse.zero, statusOk]

/-- The word that `DEC` drives has no syndrome: the flip of the position that the syndrome names clears it. -/
theorem syndromeOf_decResponse_cwOut {M : Nat} (w : BitVec (codewordLen M)) :
    syndromeOf M (decResponse w).cwOut = 0#M := by
  cases h : (syndromeOf M w).toNat with
  | zero =>
    have hzero : syndromeOf M w = 0#M := BitVec.eq_of_toNat_eq h
    rw [decResponse_of_syndromeOf_eq_zero hzero, hzero]
  | succ k =>
    have hle := syndrome_le_codewordLen (syndromeOf M w)
    rw [decResponse_of_syndromeOf_eq_succ h]
    exact (syndromeOf_flip_eq_zero_iff w (by omega)).mpr h

theorem extractedData_decResponse_cwOut {M : Nat} (w : BitVec (codewordLen M)) :
    extractedData M (decResponse w).cwOut = (decResponse w).dataOut := rfl

section
variable {s : State} {w : BitVec (codewordLen s.M)}

theorem exec_chk_of_syndromeOf_eq_zero (h : syndromeOf s.M w = 0#s.M) :
    exec (.chk (written w)) s =
      .next { s with wires := { s.wires with coreOut := ⟨0, 0, 0, 0, false, true, 0⟩ } } := by
  rw [exec_chk_written, chkResponse_eq_iff.mpr h]
  rfl

theorem exec_dec_of_syndromeOf_eq_zero (h : syndromeOf s.M w = 0#s.M) :
    exec (.dec (written w)) s = .next { s with wires := { s.wires with
      coreOut := ⟨w, extractedData s.M w, 0, BitVec.allOnes s.M, false, false, 0⟩ } } := by
  rw [exec_dec_written, decResponse_of_syndromeOf_eq_zero h]
  rfl

theorem exec_dec_of_syndromeOf_eq_succ {k : Nat} (h : (syndromeOf s.M w).toNat = k + 1) :
    exec (.dec (written w)) s = .next { s with wires := { s.wires with
      coreOut := ⟨w ^^^ BitVec.twoPow _ k, extractedData s.M (w ^^^ BitVec.twoPow _ k), 0,
        BitVec.ofNat s.M (codewordLen s.M - (k + 1)), true, false, 0⟩ } } := by
  rw [exec_dec_written, decResponse_of_syndromeOf_eq_succ h]
  rfl

end

/-! ## What `DEC` does to errors (R77) -/

/-- A single flip has the syndrome that names it, so `DEC` undoes it. -/
theorem exec_dec_codeword_flip {s : State} {k : Nat} (d : BitVec (dataLen s.M)) (hk : k < codewordLen s.M) :
    exec (.dec (written (codeword s.M d ^^^ BitVec.twoPow _ k))) s = .next { s with wires := { s.wires with
      coreOut := ⟨codeword s.M d, d, 0, BitVec.ofNat s.M (codewordLen s.M - (k + 1)), true, false, 0⟩ } } := by
  have hsyn : (syndromeOf s.M (codeword s.M d ^^^ BitVec.twoPow _ k)).toNat = k + 1 := by
    rw [toNat_syndromeOf_flip _ hk, syndromeOf_codeword, BitVec.toNat_zero, Nat.zero_xor]
  have hback : codeword s.M d ^^^ BitVec.twoPow _ k ^^^ BitVec.twoPow _ k = codeword s.M d := by
    rw [BitVec.xor_assoc, BitVec.xor_self, BitVec.xor_zero]
  rw [exec_dec_of_syndromeOf_eq_succ hsyn, hback, extractedData_codeword]

/-- Settles O42: the index `p` from the left is the position `N - p`. -/
theorem singleErrorsAreCorrected : Obligations.SingleErrorsAreCorrected := by
  intro s d
  refine ⟨codeword s.M d, exec_enc_written d, fun p hp => ?_⟩
  have hindex : codewordLen s.params.M - (codewordLen s.params.M - 1 - p + 1) = p := by omega
  have hlt : codewordLen s.params.M - 1 - p < codewordLen s.params.M := by omega
  rw [exec_dec_codeword_flip d hlt, hindex]

/-- Settles O43: what `ENC` drives has no syndrome, and extraction undoes `ENC`. -/
theorem intactCodewordsComeBack : Obligations.IntactCodewordsComeBack := by
  intro s d
  have hsyn := syndromeOf_codeword d
  refine ⟨codeword s.M d, exec_enc_written d, ?_, exec_chk_of_syndromeOf_eq_zero hsyn, ?_⟩
  · rw [exec_dec_of_syndromeOf_eq_zero hsyn, extractedData_codeword]
  · rw [exec_ext_drives_extractedData, extractedData_codeword]

/-- Settles O44: what `DEC` drives has no syndrome. -/
theorem decodedWordsPassTheCheck : Obligations.DecodedWordsPassTheCheck := by
  intro s w
  have hsyn := syndromeOf_decResponse_cwOut w
  refine ⟨decResponse w, exec_dec_written w, exec_chk_of_syndromeOf_eq_zero hsyn, ?_⟩
  rw [exec_dec_of_syndromeOf_eq_zero hsyn, extractedData_decResponse_cwOut]

/-- Two more flips elsewhere do not undo a flip. -/
theorem three_flips_ne {M k l m : Nat} (c : BitVec (codewordLen M)) (hk : k < codewordLen M) (hl : k ≠ l)
    (hm : k ≠ m) : c ^^^ BitVec.twoPow _ k ^^^ BitVec.twoPow _ l ^^^ BitVec.twoPow _ m ≠ c := by
  intro h
  have hbit := congrArg (·.getLsbD k) h
  simp [hk, hl, hm] at hbit

/-- Settles O45: the two flips have the syndrome `a XOR b`, which names a third position; the word with that one flipped
too is the encoding of its own data word, and not of the one sent. -/
theorem doubleErrorsAreMiscorrected : Obligations.DoubleErrorsAreMiscorrected := by
  intro s d a b ha haN hb hbN hab
  have hsyn := toNat_syndromeOf_two_flips (syndromeOf_codeword d) ha haN hb hbN
  have hthird : a ^^^ b ≠ a := fun h => by
    have : b = 0 := Nat.xor_right_inj.mp (h.trans (Nat.xor_zero a).symm)
    omega
  have hle : a ^^^ b ≤ codewordLen s.params.M := hsyn ▸ syndrome_le_codewordLen _
  obtain ⟨k, hk⟩ := Nat.exists_eq_succ_of_ne_zero fun h => hab (Nat.xor_eq_zero_iff.mp h)
  rw [hk] at hsyn hthird hle ⊢
  have hclear := codeword_extractedData ((syndromeOf_flip_eq_zero_iff _ (by omega)).mpr hsyn)
  refine ⟨_, _, _, rfl, exec_dec_of_syndromeOf_eq_succ hsyn, rfl, hclear, fun hd => ?_⟩
  rw [hd] at hclear
  exact three_flips_ne (codeword s.params.M d) (by omega) (by omega) (by omega) hclear.symm

/-- Settles O46: the syndrome of the pattern is the XOR of its position numbers. -/
theorem cancellingErrorsPassUnseen : Obligations.CancellingErrorsPassUnseen := by
  intro s d e he
  have hsyn : syndromeOf s.M (codeword s.M d ^^^ e) = 0#s.M := by
    rw [syndromeOf_xor, syndromeOf_codeword, BitVec.zero_xor]
    exact BitVec.eq_of_toNat_eq ((toNat_syndromeOf e).trans he)
  exact ⟨_, exec_dec_of_syndromeOf_eq_zero hsyn⟩

end Sys2Proof.Machine

/-! # `hamming_core` as a whole (44_hamming_core.md) -/

namespace Sys2Proof.Machine

/-! ## The step (R82, R83) -/

/-- Settles O8: the block never acts on its own. -/
theorem nothingHappensWithoutTransaction : Obligations.NothingHappensWithoutTransaction :=
  fun _ h => step_of_pending_nil h

/-- Settles O9: a step finds the list empty and stays, or the unit addressed answers the head of the list. -/
theorem everyStepAnswers : Obligations.EveryStepAnswers := by
  intro s
  cases hp : s.pending with
  | nil => exact ⟨s, step_of_pending_nil hp, rfl, rfl, by rw [hp]; rfl⟩
  | cons r rest => exact ⟨_, step_of_pending_cons hp, rfl, rfl, rfl⟩

/-- Settles O10: the step of a transaction, for one on `hamming_core`. -/
theorem coreTransactionIsFunctionOfRequest : Obligations.CoreTransactionIsFunctionOfRequest :=
  fun _ _ _ h => step_of_pending_cons h

/-! ## The rows of the dispatch table (R81) -/

section
variable {M : Nat} (d : BitVec (dataLen M)) (c : BitVec (codewordLen M)) (m : BitVec (M * codewordLen M))

theorem hammingCore_enc : hammingCore ⟨0b000#3, d, c, m⟩ = ⟨codeword M d, 0, 0, 0, false, false, 0⟩ := rfl

theorem hammingCore_syn : hammingCore ⟨0b001#3, d, c, m⟩ = ⟨0, 0, syndromeOf M c, 0, false, false, 0⟩ := rfl

theorem hammingCore_chk : hammingCore ⟨0b010#3, d, c, m⟩ = ⟨0, 0, 0, 0, false, syndromeOf M c == 0, 0⟩ := rfl

theorem hammingCore_dec : hammingCore ⟨0b011#3, d, c, m⟩ =
    ⟨flipNamed c (syndromeOf M c), extractedData M (flipNamed c (syndromeOf M c)), 0, errPos (syndromeOf M c),
      errFlag (syndromeOf M c), false, 0⟩ := rfl

theorem hammingCore_pos : hammingCore ⟨0b100#3, d, c, m⟩ = ⟨positionedBits M d, 0, 0, 0, false, false, 0⟩ := rfl

theorem hammingCore_ext : hammingCore ⟨0b101#3, d, c, m⟩ = ⟨0, extractedData M c, 0, 0, false, false, 0⟩ :=
  extResponse_eq c

theorem hammingCore_mvm :
    hammingCore ⟨0b110#3, d, c, m⟩ = ⟨0, 0, matrixVector M (codewordLen M) m c, 0, false, false, 0⟩ := rfl

theorem hammingCore_reserved : hammingCore ⟨0b111#3, d, c, m⟩ = ⟨0, 0, 0, 0, false, false, 5⟩ := rfl

end

/-- Settles O11, row by row. -/
theorem coreOutputsForEachOp : Obligations.CoreOutputsForEachOp := by
  rintro M ⟨op, d, c, m⟩
  refine ⟨?enc, ?syn, ?chk, ?dec, ?pos, ?ext, ?mvm, ?reserved⟩ <;> rintro (rfl : op = _)
  case enc => exact hammingCore_enc d c m
  case syn => exact hammingCore_syn d c m
  case chk => exact hammingCore_chk d c m
  case dec => exact hammingCore_dec d c m
  case pos => exact hammingCore_pos d c m
  case ext => exact hammingCore_ext d c m
  case mvm => exact hammingCore_mvm d c m
  case reserved => exact hammingCore_reserved d c m

/-! ## What an operation leaves unchanged (R37, R43, R82) -/

theorem exec_loc_of_ok {s : State} {cw synIn : List Symbol} {a : BitVec (codewordLen s.M) × BitVec s.M}
    (h : checkedLocator s.M cw synIn = .ok a) :
    exec (.loc cw synIn) s = .next { s with wires := s.wires.respondLocator (hammingErrorLocator a.1 a.2) } := by
  simp only [exec, execLoc, h]

theorem exec_next_of_ne_loc {i : Instr} {s t : State} (hi : ∀ cw synIn, i ≠ .loc cw synIn) (h : exec i s = .next t) :
    ∃ o, t = { s with wires := s.wires.respond o } := by
  obtain ⟨o, ho⟩ | ⟨cw, synIn, _, hloc, -⟩ | ⟨cw, synIn, _, hloc, -⟩ := exec_cases i s
  · exact ⟨o, Host.Outcome.next.inj (h.symm.trans ho)⟩
  · exact absurd hloc (hi cw synIn)
  · exact absurd hloc (hi cw synIn)

theorem exec_loc_next {cw synIn : List Symbol} {s t : State} (h : exec (.loc cw synIn) s = .next t) :
    ∃ o, t = { s with wires := s.wires.respondLocator o } := by
  cases hc : checkedLocator s.M cw synIn with
  | error e => cases h.symm.trans (exec_loc_of_error hc)
  | ok a => exact ⟨_, Host.Outcome.next.inj (h.symm.trans (exec_loc_of_ok hc))⟩

/-- Settles O29: `respond` and `respondLocator` are all that an operation does to the state. -/
theorem operationsDriveOnlyTheirOutputs : Obligations.OperationsDriveOnlyTheirOutputs := by
  refine ⟨fun i s t hi h => exec_next_of_ne_loc hi h, fun cw synIn s t h => ?_⟩
  obtain ⟨o, rfl⟩ := exec_loc_next h
  exact ⟨o.cwCorr, o.dataOut, o.errPos, o.errFlag, rfl⟩

/-! ## The relations between the operations (R84) -/

/-- `ENC` fills the parity slots that `POS` leaves at zero, and agrees with it elsewhere. -/
theorem codeword_eq_positionedBits_xor {M : Nat} (d : BitVec (dataLen M)) :
    ∃ parity : BitVec (codewordLen M), (∀ r < dataLen M, parity.getLsbD (dpos M r - 1) = false) ∧
      (∀ p < M, parity.getLsbD (2 ^ p - 1) = parityBit M d p) ∧ codeword M d = positionedBits M d ^^^ parity := by
  refine ⟨positionedBits M d ^^^ codeword M d, fun r hr => ?_, fun p hp => ?_, ?_⟩
  · rw [BitVec.getLsbD_xor, positionedBits_data d hr, codeword_data d hr, Bool.xor_self]
  · rw [BitVec.getLsbD_xor, positionedBits_parity d hp, codeword_parity d hp, Bool.false_xor]
  · rw [← BitVec.xor_assoc, BitVec.xor_self, BitVec.zero_xor]

theorem errFlag_eq_not_okFlag {M : Nat} (v : BitVec M) : errFlag v = !okFlag v := rfl

theorem flipNamed_eq_ite {M : Nat} (c : BitVec (codewordLen M)) (v : BitVec M) :
    flipNamed c v = if v = 0 then c else c ^^^ BitVec.twoPow _ (v.toNat - 1) := by
  split
  next h => rw [h, flipNamed_zero]
  next h =>
    have hpos : v.toNat ≠ 0 := BitVec.toNat_ne_iff_ne.mpr h
    exact flipNamed_of_toNat_eq_succ c (by omega)

theorem hammingCore_dec_codeword {M : Nat} (d d' : BitVec (dataLen M)) (m : BitVec (M * codewordLen M)) :
    hammingCore ⟨0b011#3, d', codeword M d, m⟩ = ⟨codeword M d, d, 0, BitVec.allOnes M, false, false, 0⟩ := by
  calc hammingCore ⟨0b011#3, d', codeword M d, m⟩
    _ = decResponse (codeword M d) := rfl
    _ = ⟨codeword M d, extractedData M (codeword M d), 0, BitVec.allOnes M, false, false, 0⟩ :=
      decResponse_of_syndromeOf_eq_zero (syndromeOf_codeword d)
    _ = _ := by rw [extractedData_codeword]

/-- Settles O49: each response is read from its row of the dispatch table, and the relation is a law of the units. -/
theorem operationsAreRelated : Obligations.OperationsAreRelated := by
  intro p d c ENC POS SYN DEC EXT CHK
  have hext : ∀ w, EXT w = extractedData p.M w := fun w => congrArg CoreResponse.dataOut (hammingCore_ext 0 w 0)
  have hchk : ∀ w, CHK w = true ↔ syndromeOf p.M w = 0 := fun w => okFlag_eq_true_iff
  exact ⟨codeword_eq_positionedBits_xor d, (hext _).trans (extractedData_codeword d),
    (hext _).trans (extractedData_positionedBits d), hchk c, errFlag_eq_not_okFlag _, flipNamed_eq_ite c _,
    (hext _).symm, errPos_eq_not _, matrixVector_checkMatrixBus c, (hchk _).mpr (syndromeOf_decResponse_cwOut c),
    hammingCore_dec_codeword d 0 0⟩

end Sys2Proof.Machine

/-! # Errors and the status port (60_exceptions.md) -/

namespace Sys2Proof.Machine

/-! ## What `status` shows (R91, R96) -/

theorem hammingCore_status {M : Nat} (q : CoreRequest M) :
    (hammingCore q).status = if Op.ofBits q.op = .reserved then statusIllegalOp else statusOk := by
  rw [hammingCore]
  cases Op.ofBits q.op <;> rfl

/-- Settles O60: the numbers are those of the definitions, and only the code `111` selects the reserved row. -/
theorem errorCodesAreNumbered : Obligations.ErrorCodesAreNumbered :=
  ⟨rfl, rfl, rfl, rfl, rfl, rfl, fun _ q => (hammingCore_status q).trans (if_congr Op.ofBits_eq_iff rfl rfl)⟩

/-- A transaction on `hamming_core` puts one of its two codes on the port; every other one leaves the port alone. -/
theorem Wires.StatusReachable.answered {M R C : Nat} {w : Wires M R C} (h : w.StatusReachable) (r : Request M R C) :
    (w.answered r).StatusReachable := by
  cases r with
  | core q =>
    have hstatus := hammingCore_status q
    split at hstatus
    · exact .inr hstatus
    · exact .inl hstatus
  | locator c v => exact h
  | encoder d => exact h
  | syndrome c => exact h
  | matrix mat vec => exact h

/-- What a step that answers has done: nothing, or one unit has answered the head of the list. -/
theorem step_next_cases {s t : State} (h : step s = .next t) :
    t = s ∨ ∃ r rest, s.pending = r :: rest ∧ t = { s with wires := s.wires.answered r, pending := rest } := by
  cases hp : s.pending with
  | nil => exact .inl (Host.Outcome.next.inj (h.symm.trans (step_of_pending_nil hp)))
  | cons r rest => exact .inr ⟨r, rest, rfl, Host.Outcome.next.inj (h.symm.trans (step_of_pending_cons hp))⟩

/-- Settles O19: an answered transaction keeps the status within the two codes. -/
theorem statusIsOkOrIllegalOp : Obligations.StatusIsOkOrIllegalOp := by
  intro s t hs hstep
  obtain rfl | ⟨r, rest, -, rfl⟩ := step_next_cases hstep
  · exact hs
  · exact hs.answered r

/-! ## `Construct` (R98) -/

theorem construct_of_lt_two {p : Int} (h : p < 2) : construct p = .error .invalidParameter :=
  dif_neg (by omega)

theorem construct_of_two_le {p : Int} (h : 2 ≤ p) : construct p = .ok ⟨p.toNat, by omega⟩ :=
  dif_pos h

theorem construct_eq_invalidParameter_iff {p : Int} : construct p = .error .invalidParameter ↔ p < 2 := by
  refine ⟨fun h => ?_, construct_of_lt_two⟩
  by_contra hp
  cases h.symm.trans (construct_of_two_le (by omega))

/-- Settles O59: the two branches of `construct`, and the lengths that follow from `M`. -/
theorem constructNeedsTwoParityBits : Obligations.ConstructNeedsTwoParityBits := by
  refine ⟨fun p => construct_eq_invalidParameter_iff, fun p hp => ?_⟩
  exact ⟨_, construct_of_two_le hp, Int.toNat_of_nonneg (by omega), rfl, dataLen_add _,
    dataLen_pos (Params.two_le_M _)⟩

/-! ## The operand check (R93, R94, R97) -/

theorem allBits_eq_false_iff {x : List Symbol} : allBits x = false ↔ Symbol.other ∈ x := by
  simp [allBits]

/-- The three outcomes of the check: a wrong length, a symbol that is no bit, a written bus. -/
theorem checkedBus_cases (w : Nat) (x : List Symbol) :
    (x.length ≠ w ∧ checkedBus w x = .error .lengthMismatch) ∨
    (x.length = w ∧ Symbol.other ∈ x ∧ checkedBus w x = .error .invalidCharacter) ∨
    (x.length = w ∧ Symbol.other ∉ x ∧ x = written (busOf w x)) := by
  by_cases hlen : x.length = w
  · by_cases hsym : Symbol.other ∈ x
    · exact .inr (.inl ⟨hlen, hsym, checkedBus_of_symbol hlen (allBits_of_other hsym)⟩)
    · exact .inr (.inr ⟨hlen, hsym, (written_busOf (isBitString_iff.mpr ⟨hlen, hsym⟩)).symm⟩)
  · exact .inl ⟨hlen, checkedBus_of_length hlen⟩

/-- An operation on one bit sequence of `w` bits that fails exactly as the operand check does. -/
structure FailsAsChecked {α : Type} (w : Nat) (op : List Symbol → Except Fault α) : Prop where
  error_of_check : ∀ x e, checkedBus w x = .error e → op x = .error e
  ok_of_written : ∀ b : BitVec w, ∃ a, op (written b) = .ok a

section
variable {α : Type} {w : Nat} {op : List Symbol → Except Fault α} (h : FailsAsChecked w op)
include h

/-- Everything such an operation can raise, and when. -/
theorem FailsAsChecked.error_iff (x : List Symbol) (e : Fault) :
    op x = .error e ↔ (e = .lengthMismatch ∧ x.length ≠ w) ∨
      (e = .invalidCharacter ∧ x.length = w ∧ Symbol.other ∈ x) := by
  obtain ⟨herr, hok⟩ := h
  obtain ⟨hlen, hc⟩ | ⟨hlen, hsym, hc⟩ | ⟨hlen, hsym, hx⟩ := checkedBus_cases w x
  · simp [herr x _ hc, hlen, eq_comm (b := e)]
  · simp [herr x _ hc, hlen, hsym, eq_comm (b := e)]
  · obtain ⟨a, ha⟩ := hok (busOf w x)
    rw [← hx] at ha
    simp [ha, hlen, hsym]

theorem FailsAsChecked.lengthMismatch_iff (x : List Symbol) : op x = .error .lengthMismatch ↔ x.length ≠ w := by
  simp [h.error_iff]

theorem FailsAsChecked.invalidCharacter_iff (x : List Symbol) :
    op x = .error .invalidCharacter ↔ x.length = w ∧ Symbol.other ∈ x := by
  simp [h.error_iff]

theorem FailsAsChecked.ne_shapeMismatch (x : List Symbol) : op x ≠ .error .shapeMismatch := by
  simp [h.error_iff]

end

/-! ## The operations on a bit sequence -/

theorem positionBits_failsAsChecked (M : Nat) : FailsAsChecked (dataLen M) (positionBits M) :=
  ⟨fun x e h => by simp only [positionBits, h], fun d => ⟨_, positionBits_written d⟩⟩

theorem encodeSequence_failsAsChecked (M : Nat) : FailsAsChecked (dataLen M) (encodeSequence M) :=
  ⟨fun x e h => by simp only [encodeSequence, (positionBits_failsAsChecked M).error_of_check x e h],
    fun d => ⟨_, encodeSequence_written d⟩⟩

theorem extractDataBits_failsAsChecked (M : Nat) : FailsAsChecked (codewordLen M) (extractDataBits M) :=
  ⟨fun x e h => by simp only [extractDataBits, h], fun c => ⟨_, extractDataBits_written c⟩⟩

/-- The length is tested before the product is formed, so the product's own error is out of reach (R92). -/
theorem syndromeSymbols_failsAsChecked (M : Nat) : FailsAsChecked (codewordLen M) (syndromeSymbols M) :=
  ⟨fun x e h => by simp only [syndromeSymbols, h], fun c => ⟨_, syndromeSymbols_written c⟩⟩

theorem detectError_failsAsChecked (M : Nat) : FailsAsChecked (codewordLen M) (detectError M) :=
  ⟨fun x e h => by simp only [detectError, (syndromeSymbols_failsAsChecked M).error_of_check x e h],
    fun c => ⟨_, detectError_written c⟩⟩

theorem checkSequence_failsAsChecked (M : Nat) : FailsAsChecked (codewordLen M) (checkSequence M) :=
  ⟨fun x e h => by simp only [checkSequence, (syndromeSymbols_failsAsChecked M).error_of_check x e h],
    fun c => ⟨_, checkSequence_written c⟩⟩

theorem decodeSequence_failsAsChecked (M : Nat) : FailsAsChecked (codewordLen M) (decodeSequence M) :=
  ⟨fun x e h => by simp only [decodeSequence, (detectError_failsAsChecked M).error_of_check x e h],
    fun c => ⟨_, decodeAgreesWithPort M c⟩⟩

/-- Settles O56: each of the operations fails exactly as the operand check does. -/
theorem wrongLengthIsLengthMismatch : Obligations.WrongLengthIsLengthMismatch :=
  fun M x => ⟨(positionBits_failsAsChecked M).lengthMismatch_iff x,
    (encodeSequence_failsAsChecked M).lengthMismatch_iff x,
    (extractDataBits_failsAsChecked M).lengthMismatch_iff x,
    (detectError_failsAsChecked M).lengthMismatch_iff x,
    (checkSequence_failsAsChecked M).lengthMismatch_iff x,
    (decodeSequence_failsAsChecked M).lengthMismatch_iff x⟩

/-! ## The matrix product (R92, R94, R97) -/

section
variable {m : SymbolMatrix} {v : List Symbol}

theorem allBits_operands_eq_false_iff :
    (allBits v && m.rows.all allBits) = false ↔ Symbol.other ∈ v ∨ ∃ row ∈ m.rows, Symbol.other ∈ row := by
  rw [Bool.and_eq_false_iff, allBits_eq_false_iff, List.all_eq_false]
  simp only [Bool.not_eq_true, allBits_eq_false_iff]

/-- The shape is tested first, then the symbols. -/
theorem matrixVectorProduct_error_iff {e : Fault} :
    matrixVectorProduct m v = .error e ↔ (e = .shapeMismatch ∧ v.length ≠ m.cols) ∨
      (e = .invalidCharacter ∧ v.length = m.cols ∧ (allBits v && m.rows.all allBits) = false) := by
  rw [matrixVectorProduct]
  by_cases hlen : v.length = m.cols
  · cases hbits : allBits v && m.rows.all allBits <;> simp [hlen, eq_comm (b := e)]
  · simp [hlen, eq_comm (b := e)]

theorem matrixVectorProduct_eq_shapeMismatch_iff :
    matrixVectorProduct m v = .error .shapeMismatch ↔ v.length ≠ m.cols := by
  simp [matrixVectorProduct_error_iff]

theorem matrixVectorProduct_eq_invalidCharacter_iff :
    matrixVectorProduct m v = .error .invalidCharacter ↔
      v.length = m.cols ∧ (Symbol.other ∈ v ∨ ∃ row ∈ m.rows, Symbol.other ∈ row) := by
  rw [matrixVectorProduct_error_iff, allBits_operands_eq_false_iff]
  simp

end

/-- Settles O58: the product tests the shape first, and no operation on a bit sequence fails otherwise than the operand
check. -/
theorem shapeMismatchOnlyFromMatrixProduct : Obligations.ShapeMismatchOnlyFromMatrixProduct :=
  ⟨fun _ _ => matrixVectorProduct_eq_shapeMismatch_iff,
    fun M x => ⟨(positionBits_failsAsChecked M).ne_shapeMismatch x,
      (encodeSequence_failsAsChecked M).ne_shapeMismatch x,
      (extractDataBits_failsAsChecked M).ne_shapeMismatch x,
      (detectError_failsAsChecked M).ne_shapeMismatch x,
      (checkSequence_failsAsChecked M).ne_shapeMismatch x,
      (decodeSequence_failsAsChecked M).ne_shapeMismatch x⟩⟩

theorem ofChar_eq_other_iff (ch : Char) : Symbol.ofChar ch = .other ↔ ch ≠ '0' ∧ ch ≠ '1' := by
  rw [Symbol.ofChar]
  by_cases h0 : ch = '0'
  · simp [h0]
  · by_cases h1 : ch = '1' <;> simp [h0, h1]

/-- Settles O57: the reading of a character, the operand check of the operations, the product's test of its symbols. -/
theorem badSymbolIsInvalidCharacter : Obligations.BadSymbolIsInvalidCharacter :=
  ⟨ofChar_eq_other_iff,
    fun M x => ⟨(positionBits_failsAsChecked M).invalidCharacter_iff x,
      (encodeSequence_failsAsChecked M).invalidCharacter_iff x,
      (extractDataBits_failsAsChecked M).invalidCharacter_iff x,
      (detectError_failsAsChecked M).invalidCharacter_iff x,
      (checkSequence_failsAsChecked M).invalidCharacter_iff x,
      (decodeSequence_failsAsChecked M).invalidCharacter_iff x⟩,
    fun _ _ => matrixVectorProduct_eq_invalidCharacter_iff⟩

/-! ## Operands no port can carry (R95, log entry 6) -/

section
variable {s : State} {x y : List Symbol} {e : Fault}

theorem exec_formatD_of_error (h : checkedBus (dataLen s.M) x = .error e) :
    ∀ i ∈ [Instr.enc x, .pos x], exec i s = .next { s with wires := s.wires.report e.code } := by
  simp [exec, execEnc, execPos, State.formatD, h]

theorem exec_formatC_of_error (h : checkedBus (codewordLen s.M) x = .error e) :
    ∀ i ∈ [Instr.syn x, .chk x, .dec x, .ext x], exec i s = .next { s with wires := s.wires.report e.code } := by
  simp [exec, execSyn, execChk, execDec, execExt, State.formatC, h]

theorem exec_mvm_of_error (h : checkedMatrix s.M x y = .error e) :
    exec (.mvm x y) s = .next { s with wires := s.wires.report e.code } := by
  simp [exec, execMvm, State.formatMC, h]

end

/-- Settles O30: the operand check fails first on the length or the shape, then on a symbol, and its error is
reported. -/
theorem illFormedOperandsAreReported : Obligations.IllFormedOperandsAreReported := by
  intro s x y
  refine ⟨fun hx => exec_formatD_of_error (checkedBus_of_length hx),
    fun hx hsym => exec_formatD_of_error (checkedBus_of_symbol hx (allBits_of_other hsym)),
    fun hx => exec_formatC_of_error (checkedBus_of_length hx),
    fun hx hsym => exec_formatC_of_error (checkedBus_of_symbol hx (allBits_of_other hsym)),
    fun hshape => exec_mvm_of_error (checkedMatrix_of_shape hshape), fun hx hy hsym => ?_⟩
  refine exec_mvm_of_error (checkedMatrix_of_symbol hx hy ?_)
  rwa [Bool.and_eq_false_iff, allBits_eq_false_iff, allBits_eq_false_iff]

end Sys2Proof.Machine
